-- ==== Sys2Proof/Word.lean ====
section
/-! DEFINITION. The words of the ports and of the wide integer (10_state.md R40, R54). -/

namespace Sys2Proof

/-- The command word on port CMD (R40, R80). -/
abbrev CmdWord := BitVec 32

/-- An operand or result word on port A, B or RES (R40). -/
abbrev PortWord := BitVec 256

/-- A status code on port STATUS (R40). -/
abbrev StatusWord := BitVec 4

/-- One of the two words of a wide integer (R54). -/
abbrev HalfWord := BitVec 128

end Sys2Proof
end

