-- ==== Sys2Proof/Syntax.lean ====
section
/-! DEFINITION. The commands of the block, one constructor per row of spec/opcode_table.json (30_encoding.md R88). -/

namespace Sys2Proof

/-- The five Certum widths (00_scope.md R8); the width codes 0 to 4 of 30_encoding.md R82 in this order. -/
inductive Width where
  | w8
  | w16
  | w32
  | w64
  | w128
  deriving DecidableEq, Repr

/-- A Certum type: a width and a signedness (00_scope.md R15, 30_encoding.md R82, R83). -/
structure CType where
  width : Width
  signed : Bool
  deriving DecidableEq, Repr

/-- The float format of ENC and DEC (30_encoding.md R85). -/
inductive FloatFmt where
  | f64
  | f32
  deriving DecidableEq, Repr

/-- The 32 commands (30_encoding.md R88). -/
inductive Instr where
  | fromBits (t : CType)
  | signBit (t : CType)
  | sign (t : CType)
  | intC (t : CType)
  | fracC (t : CType)
  | ldMin (t : CType)
  | ldMax (t : CType)
  | ldGrain (t : CType)
  | ldPi (t : CType)
  | ldE (t : CType)
  | ldMinF (t : CType)
  | ldMaxF (t : CType)
  | enc (t : CType) (fmt : FloatFmt)
  | dec (t : CType) (fmt : FloatFmt)
  | conv (ta tb : CType)
  | neg (t : CType)
  | add (t : CType)
  | sub (t : CType)
  | mul (t : CType)
  | equal (t : CType)
  | compare (t : CType)
  | wFrom
  | wAdd
  | wSub
  | wShl
  | wShr
  | wAnd
  | wOr
  | wXor
  | wNot
  | wMul
  | wCmp
  deriving DecidableEq, Repr

end Sys2Proof
end

