-- ==== Sys2Proof/WellFormed.lean ====
section
/-! DEFINITION. Which commands of the syntax the block has. -/

namespace Sys2Proof

/-- CONV converts within one signedness class only (30_encoding.md R84, R92; 43_cross_precision.md R200).
Every other condition on a command word is a condition on its fields and is checked by the decoder. -/
def Instr.wellFormed : Instr → Bool
  | .conv ta tb => ta.signed == tb.signed
  | .fromBits _ | .signBit _ | .sign _ | .intC _ | .fracC _ => true
  | .ldMin _ | .ldMax _ | .ldGrain _ | .ldPi _ | .ldE _ | .ldMinF _ | .ldMaxF _ => true
  | .enc _ _ | .dec _ _ => true
  | .neg _ | .add _ | .sub _ | .mul _ | .equal _ | .compare _ => true
  | .wFrom | .wAdd | .wSub | .wShl | .wShr | .wAnd | .wOr | .wXor | .wNot | .wMul | .wCmp => true

end Sys2Proof
end

