-- ==== Sys2Proof/Decode.lean ====
section
/-! DEFINITION. The command word: its fields, the decoder, and after it the encoder (30_encoding.md R80 to R93, R96). -/

namespace Sys2Proof

/-- The fields of a command word (R80). -/
structure Fields where
  opc : BitVec 8
  wa : BitVec 3
  sa : Bool
  wb : BitVec 3
  sb : Bool
  fmt : Bool
  rsv : BitVec 15
  deriving DecidableEq, Repr

/-- Why a command word is illegal (R91, R92). The block reports every one of them as ILLEGAL_CMD (R311). -/
inductive DecodeError where
  /-- Bits 31..17 are not zero (R86). -/
  | reservedBits
  /-- OPC is in no row of the opcode map (R91). -/
  | reservedOpcode
  /-- WA, or WB of CONV, is 5, 6 or 7 (R82, R92). -/
  | reservedWidth
  /-- WB or SB is not zero outside CONV (R84, R87). -/
  | targetNotZero
  /-- FMT is not zero outside ENC and DEC (R85, R87). -/
  | formatNotZero
  /-- WA or SA of a wide command is not zero (R87). -/
  | typeNotZero
  /-- SB differs from SA in CONV (R84, R92). -/
  | signednessMismatch
  deriving DecidableEq, Repr

/-- The fields of a command word, at the places of R80. -/
def fieldsOf (w : CmdWord) : Fields where
  opc := w.extractLsb' 0 8
  wa := w.extractLsb' 8 3
  sa := w.getLsbD 11
  wb := w.extractLsb' 12 3
  sb := w.getLsbD 15
  fmt := w.getLsbD 16
  rsv := w.extractLsb' 17 15

/-- The width a width code stands for (R82). -/
def widthOfCode (c : BitVec 3) : Except DecodeError Width :=
  match c.toNat with
  | 0 => .ok .w8
  | 1 => .ok .w16
  | 2 => .ok .w32
  | 3 => .ok .w64
  | 4 => .ok .w128
  | _ => .error .reservedWidth

/-- The Certum type a width code and a signedness bit stand for (R82, R83). -/
def certumType (code : BitVec 3) (signed : Bool) : Except DecodeError CType :=
  match widthOfCode code with
  | .ok w => .ok ⟨w, signed⟩
  | .error e => .error e

/-- The float format of the FMT bit (R85). -/
def floatFmtOf (fmt : Bool) : FloatFmt :=
  if fmt then .f32 else .f64

/-- WB and SB are zero (R84). -/
def Fields.targetZero (f : Fields) : Bool :=
  f.wb == 0 && !f.sb

/-- A command of the first row of R87: type in WA and SA, everything else zero. -/
def decodeTyped (f : Fields) (mk : CType → Instr) : Except DecodeError Instr :=
  if f.targetZero = false then .error .targetNotZero
  else if f.fmt then .error .formatNotZero
  else match certumType f.wa f.sa with
    | .ok t => .ok (mk t)
    | .error e => .error e

/-- ENC and DEC: type in WA and SA, format in FMT (R87). -/
def decodeTypedFmt (f : Fields) (mk : CType → FloatFmt → Instr) : Except DecodeError Instr :=
  if f.targetZero = false then .error .targetNotZero
  else match certumType f.wa f.sa with
    | .ok t => .ok (mk t (floatFmtOf f.fmt))
    | .error e => .error e

/-- CONV: source type in WA and SA, target type in WB and SB, with SB equal to SA (R84, R87). -/
def decodeConv (f : Fields) : Except DecodeError Instr :=
  if f.fmt then .error .formatNotZero
  else if f.sb ≠ f.sa then .error .signednessMismatch
  else match certumType f.wa f.sa, certumType f.wb f.sb with
    | .ok ta, .ok tb => .ok (.conv ta tb)
    | .error e, _ => .error e
    | .ok _, .error e => .error e

/-- A wide command: every field but OPC is zero (R87). -/
def decodeWide (f : Fields) (i : Instr) : Except DecodeError Instr :=
  if f.wa ≠ 0 ∨ f.sa then .error .typeNotZero
  else if f.targetZero = false then .error .targetNotZero
  else if f.fmt then .error .formatNotZero
  else .ok i

/-- The opcode map of R88 over the fields of a command word. -/
def decodeFields (f : Fields) : Except DecodeError Instr :=
  if f.rsv ≠ 0 then .error .reservedBits
  else match f.opc.toNat with
    | 0x01 => decodeTyped f .fromBits
    | 0x02 => decodeTyped f .signBit
    | 0x03 => decodeTyped f .sign
    | 0x04 => decodeTyped f .intC
    | 0x05 => decodeTyped f .fracC
    | 0x10 => decodeTyped f .ldMin
    | 0x11 => decodeTyped f .ldMax
    | 0x12 => decodeTyped f .ldGrain
    | 0x13 => decodeTyped f .ldPi
    | 0x14 => decodeTyped f .ldE
    | 0x15 => decodeTyped f .ldMinF
    | 0x16 => decodeTyped f .ldMaxF
    | 0x20 => decodeTypedFmt f .enc
    | 0x21 => decodeTypedFmt f .dec
    | 0x30 => decodeConv f
    | 0x40 => decodeTyped f .neg
    | 0x41 => decodeTyped f .add
    | 0x42 => decodeTyped f .sub
    | 0x43 => decodeTyped f .mul
    | 0x44 => decodeTyped f .equal
    | 0x45 => decodeTyped f .compare
    | 0x80 => decodeWide f .wFrom
    | 0x81 => decodeWide f .wAdd
    | 0x82 => decodeWide f .wSub
    | 0x83 => decodeWide f .wShl
    | 0x84 => decodeWide f .wShr
    | 0x85 => decodeWide f .wAnd
    | 0x86 => decodeWide f .wOr
    | 0x87 => decodeWide f .wXor
    | 0x88 => decodeWide f .wNot
    | 0x89 => decodeWide f .wMul
    | 0x8A => decodeWide f .wCmp
    | _ => .error .reservedOpcode

/-- The decoder: every 32-bit word is one command or is illegal, with the reason (R89). -/
def decode (w : CmdWord) : Except DecodeError Instr :=
  decodeFields (fieldsOf w)

/-- The legality predicate, case for case as R89 writes it; the decoder is written from the opcode map instead. -/
def legal (w : CmdWord) : Bool :=
  let opc := (w.extractLsb' 0 8).toNat
  let wa := (w.extractLsb' 8 3).toNat
  let sa := w.getLsbD 11
  let wb := (w.extractLsb' 12 3).toNat
  let sb := w.getLsbD 15
  let fmt := w.getLsbD 16
  let rsv := (w.extractLsb' 17 15).toNat
  rsv == 0 &&
    (if (0x01 ≤ opc ∧ opc ≤ 0x05) ∨ (0x10 ≤ opc ∧ opc ≤ 0x16) ∨ (0x40 ≤ opc ∧ opc ≤ 0x45) then
      decide (wa ≤ 4) && wb == 0 && !sb && !fmt
    else if opc = 0x20 ∨ opc = 0x21 then
      decide (wa ≤ 4) && wb == 0 && !sb
    else if opc = 0x30 then
      decide (wa ≤ 4) && decide (wb ≤ 4) && sb == sa && !fmt
    else if 0x80 ≤ opc ∧ opc ≤ 0x8A then
      wa == 0 && !sa && wb == 0 && !sb && !fmt
    else false)

/-- The instruction the decoder reads from a word numbered as spec/opcode_table.json numbers its bits: one
32-bit command word, bit 0 the least significant (R11, R81). A word that needs more than 32 bits is refused
(DESIGN CHOICE, safe: notes/assumptions/12.md). -/
def decodeTableWord (nbits w : Nat) : Option Instr :=
  let v := w % 2 ^ nbits
  if v < 2 ^ 32 then
    match decode (BitVec.ofNat 32 v) with
    | .ok i => some i
    | .error _ => none
  else none

/-! The encoder. -/

/-- The command word with the given fields (R96: `OPC | WA << 8 | SA << 11 | WB << 12 | SB << 15 | FMT << 16`). -/
def packFields (f : Fields) : CmdWord :=
  f.rsv ++ BitVec.ofBool f.fmt ++ BitVec.ofBool f.sb ++ f.wb ++ BitVec.ofBool f.sa ++ f.wa ++ f.opc

/-- The width code of a width (R82). -/
def Width.code : Width → BitVec 3
  | .w8 => 0
  | .w16 => 1
  | .w32 => 2
  | .w64 => 3
  | .w128 => 4

/-- The FMT bit of a format (R85). -/
def FloatFmt.bit : FloatFmt → Bool
  | .f64 => false
  | .f32 => true

/-- The fields of a command of the first row of R87. -/
def typedFields (opc : BitVec 8) (t : CType) : Fields :=
  { opc, wa := t.width.code, sa := t.signed, wb := 0, sb := false, fmt := false, rsv := 0 }

/-- The fields of ENC and DEC (R87). -/
def typedFmtFields (opc : BitVec 8) (t : CType) (fmt : FloatFmt) : Fields :=
  { opc, wa := t.width.code, sa := t.signed, wb := 0, sb := false, fmt := fmt.bit, rsv := 0 }

/-- The fields of CONV (R87). -/
def convFields (ta tb : CType) : Fields :=
  { opc := 0x30, wa := ta.width.code, sa := ta.signed, wb := tb.width.code, sb := tb.signed, fmt := false, rsv := 0 }

/-- The fields of a wide command (R87). -/
def wideFields (opc : BitVec 8) : Fields :=
  { opc, wa := 0, sa := false, wb := 0, sb := false, fmt := false, rsv := 0 }

/-- The fields of a command's word (R87, R88). -/
def Instr.fields : Instr → Fields
  | .fromBits t => typedFields 0x01 t
  | .signBit t => typedFields 0x02 t
  | .sign t => typedFields 0x03 t
  | .intC t => typedFields 0x04 t
  | .fracC t => typedFields 0x05 t
  | .ldMin t => typedFields 0x10 t
  | .ldMax t => typedFields 0x11 t
  | .ldGrain t => typedFields 0x12 t
  | .ldPi t => typedFields 0x13 t
  | .ldE t => typedFields 0x14 t
  | .ldMinF t => typedFields 0x15 t
  | .ldMaxF t => typedFields 0x16 t
  | .enc t fmt => typedFmtFields 0x20 t fmt
  | .dec t fmt => typedFmtFields 0x21 t fmt
  | .conv ta tb => convFields ta tb
  | .neg t => typedFields 0x40 t
  | .add t => typedFields 0x41 t
  | .sub t => typedFields 0x42 t
  | .mul t => typedFields 0x43 t
  | .equal t => typedFields 0x44 t
  | .compare t => typedFields 0x45 t
  | .wFrom => wideFields 0x80
  | .wAdd => wideFields 0x81
  | .wSub => wideFields 0x82
  | .wShl => wideFields 0x83
  | .wShr => wideFields 0x84
  | .wAnd => wideFields 0x85
  | .wOr => wideFields 0x86
  | .wXor => wideFields 0x87
  | .wNot => wideFields 0x88
  | .wMul => wideFields 0x89
  | .wCmp => wideFields 0x8A

/-- The command word of a command (R96). -/
def encode (i : Instr) : CmdWord :=
  packFields i.fields

end Sys2Proof
end

