-- ==== Sys2Proof/Machine/Layout.lean ====
section
/-! DEFINITION. Certum layouts: the parameters of the ten types, the integer reading of a pattern, the named
patterns, and the saturating writes (00_scope.md R9, R12, R13; 10_state.md R44 to R53; 44_saturating_arith.md R230). -/

namespace Sys2Proof

/-- N, the width of a type in bits (R8, R9). -/
def Width.bits : Width → Nat
  | .w8 => 8
  | .w16 => 16
  | .w32 => 32
  | .w64 => 64
  | .w128 => 128

/-- N of a type (R9). -/
def CType.bits (t : CType) : Nat :=
  t.width.bits

/-- F, the number of fraction bits; the same for both signedness classes (R9). -/
def CType.fracBits (t : CType) : Nat :=
  match t.width with
  | .w8 => 6
  | .w16 => 13
  | .w32 => 28
  | .w64 => 59
  | .w128 => 122

/-- I, the number of integer bits (R9). -/
def CType.intBits (t : CType) : Nat :=
  match t.width, t.signed with
  | .w8, true => 1
  | .w16, true => 2
  | .w32, true => 3
  | .w64, true => 4
  | .w128, true => 5
  | .w8, false => 2
  | .w16, false => 3
  | .w32, false => 4
  | .w64, false => 5
  | .w128, false => 6

/-- A pattern of a Certum type: N bits (R44, R45). -/
abbrev CType.Pattern (t : CType) := BitVec t.bits

namespace Machine

/-- `clamp(x, lo, hi)` on integers (R13). -/
def clampInt (x lo hi : Int) : Int :=
  if x < lo then lo else if hi < x then hi else x

/-- `int_T(b)`: two's complement for a signed type, unsigned for an unsigned one; value_T(b) is this over 2^F
(R12, R47, R230). -/
def intOf (t : CType) (b : t.Pattern) : Int :=
  if t.signed then b.toInt else (b.toNat : Int)

/-- The magnitude of a pattern (R17). -/
def magnitude (t : CType) (b : t.Pattern) : Nat :=
  (intOf t b).natAbs

/-- The sign of a pattern as a bit: the MSB of a signed pattern, 0 for an unsigned type (R202, R234). -/
def isNegative (t : CType) (b : t.Pattern) : Bool :=
  t.signed && b.msb

/-- `bits_N(x)`: the N-bit pattern of x mod 2^N (R12). -/
def bitsOf (t : CType) (x : Int) : t.Pattern :=
  BitVec.ofInt t.bits x

/-- The least integer a pattern of the type reads as (R230). -/
def minInt (t : CType) : Int :=
  if t.signed then -(2 ^ (t.bits - 1) : Int) else 0

/-- The greatest integer a pattern of the type reads as (R230). -/
def maxInt (t : CType) : Int :=
  if t.signed then 2 ^ (t.bits - 1) - 1 else 2 ^ t.bits - 1

/-- MIN_T: only the sign bit set, or all zeros for an unsigned type (R49). -/
def minPattern (t : CType) : t.Pattern :=
  if t.signed then BitVec.ofNat t.bits (2 ^ (t.bits - 1)) else 0

/-- MAXmag_T, the magnitude of MAX_T (R53). -/
def maxMag (t : CType) : Nat :=
  if t.signed then 2 ^ (t.bits - 1) - 1 else 2 ^ t.bits - 1

/-- MAX_T: every bit but the sign bit set, or all ones for an unsigned type (R50). -/
def maxPattern (t : CType) : t.Pattern :=
  BitVec.ofNat t.bits (maxMag t)

/-- GRAIN_T: the pattern 0…01 (R51). -/
def grainPattern (t : CType) : t.Pattern :=
  BitVec.ofNat t.bits 1

/-- `sat_T(y)`: the pattern of y clamped to the range of the type (R230). -/
def saturate (t : CType) (y : Int) : t.Pattern :=
  bitsOf t (clampInt y (minInt t) (maxInt t))

/-- Applying a sign to a magnitude with saturation, as ENC, CONV and MUL do (R165, R206, R235): a negative
magnitude of 2^(N-1) or more gives MIN_T, a positive one above MAXmag_T gives MAX_T. -/
def signMagnitude (t : CType) (neg : Bool) (m : Nat) : t.Pattern :=
  if neg then
    if 2 ^ (t.bits - 1) ≤ m then minPattern t else BitVec.ofNat t.bits (2 ^ t.bits - m)
  else
    if maxMag t < m then maxPattern t else BitVec.ofNat t.bits m

/-- PI_T, from the table of R130: π rounded to the nearest multiple of 2^-F and saturated to MAX_T (R129). -/
def piPattern (t : CType) : t.Pattern :=
  match t.width, t.signed with
  | .w8, true => BitVec.ofNat t.bits 0x7F
  | .w8, false => BitVec.ofNat t.bits 0xC9
  | .w16, _ => BitVec.ofNat t.bits 0x6488
  | .w32, _ => BitVec.ofNat t.bits 0x3243F6A9
  | .w64, _ => BitVec.ofNat t.bits 0x1921FB54442D1847
  | .w128, _ => BitVec.ofNat t.bits 0x0C90FDAA22168C234C4C6628B80DC1CD

/-- E_T, from the table of R130: e rounded to the nearest multiple of 2^-F and saturated to MAX_T (R129). -/
def ePattern (t : CType) : t.Pattern :=
  match t.width, t.signed with
  | .w8, true => BitVec.ofNat t.bits 0x7F
  | .w8, false => BitVec.ofNat t.bits 0xAE
  | .w16, _ => BitVec.ofNat t.bits 0x56FC
  | .w32, _ => BitVec.ofNat t.bits 0x2B7E1516
  | .w64, _ => BitVec.ofNat t.bits 0x15BF0A8B14576953
  | .w128, _ => BitVec.ofNat t.bits 0x0ADF85458A2BB4A9AAFDC5620273D3CF

end Machine

end Sys2Proof
end

