-- ==== Sys2Proof/Machine/Float.lean ====
section
/-! DEFINITION. IEEE 754 binary64 and binary32 patterns: fields, classes, exact values, and rounding to nearest
with ties to even (00_scope.md R13, 20_memory.md R61). The formats are general knowledge that the spec itself
supplies (93_implementation_defined.md items 24 to 26). -/

namespace Sys2Proof

/-- The width of a format's pattern (R61). -/
def FloatFmt.bits : FloatFmt → Nat
  | .f64 => 64
  | .f32 => 32

/-- The number of fraction bits of a format (R61). -/
def FloatFmt.fracBits : FloatFmt → Nat
  | .f64 => 52
  | .f32 => 23

/-- The number of exponent bits of a format (R61). -/
def FloatFmt.expBits : FloatFmt → Nat
  | .f64 => 11
  | .f32 => 8

/-- The exponent bias of a format (R13). -/
def FloatFmt.bias : FloatFmt → Nat
  | .f64 => 1023
  | .f32 => 127

/-- A pattern of a float format (R61). -/
abbrev FloatFmt.Pattern (fmt : FloatFmt) := BitVec fmt.bits

namespace Machine

/-- The fraction field of a pattern (R61). -/
def floatFrac (fmt : FloatFmt) (p : fmt.Pattern) : Nat :=
  p.toNat % 2 ^ fmt.fracBits

/-- The exponent field of a pattern (R61). -/
def floatExp (fmt : FloatFmt) (p : fmt.Pattern) : Nat :=
  p.toNat / 2 ^ fmt.fracBits % 2 ^ fmt.expBits

/-- The sign bit of a pattern (R61). -/
def floatSign (fmt : FloatFmt) (p : fmt.Pattern) : Bool :=
  p.msb

/-- `isNaN(p)` (R13): exponent all ones, fraction not zero. -/
def isNaN (fmt : FloatFmt) (p : fmt.Pattern) : Bool :=
  floatExp fmt p == 2 ^ fmt.expBits - 1 && floatFrac fmt p != 0

/-- `isInf(p)` (R13): exponent all ones, fraction zero. -/
def isInf (fmt : FloatFmt) (p : fmt.Pattern) : Bool :=
  floatExp fmt p == 2 ^ fmt.expBits - 1 && floatFrac fmt p == 0

/-- How many float units make 1.0. A float unit is 2^-1074, the smallest positive binary64 value, so that every
finite binary64 and binary32 value is a whole number of units (DEDUCED from R61: notes/assumptions/9.md). -/
def floatUnit : Nat :=
  2 ^ 1074

/-- How many float units the least significant fraction bit of a subnormal pattern of the format is worth:
2^-1074 for binary64, 2^-149 for binary32. -/
def subnormalUnits : FloatFmt → Nat
  | .f64 => 1
  | .f32 => 2 ^ 925

/-- The magnitude of a finite pattern in float units: significand times power of two, exactly (R13). -/
def floatMag (fmt : FloatFmt) (p : fmt.Pattern) : Nat :=
  if floatExp fmt p = 0 then floatFrac fmt p * subnormalUnits fmt
  else (2 ^ fmt.fracBits + floatFrac fmt p) * 2 ^ (floatExp fmt p - 1) * subnormalUnits fmt

/-- `f64val(p)` and `f32val(p)` of a finite pattern, in float units (R13). Both formats share the unit, which is
the exact widening of a binary32 operand (R160). -/
def floatVal (fmt : FloatFmt) (p : fmt.Pattern) : Int :=
  if floatSign fmt p then -(floatMag fmt p : Int) else floatMag fmt p

/-- `round_half_away(n / d)` for a nonnegative rational: the nearest integer, a tie going up (R13). -/
def roundHalfAway (n d : Nat) : Nat :=
  (2 * n + d) / (2 * d)

/-- The significand of `n` cut to `keep + 1` bits, rounded to nearest with ties to even (R13). A carry out of the
top gives 2^(keep+1). -/
def roundSignificand (keep n : Nat) : Nat :=
  let top := n.log2
  if top ≤ keep then n * 2 ^ (keep - top)
  else
    let drop := top - keep
    let q := n / 2 ^ drop
    let r := n % 2 ^ drop
    if 2 ^ drop < 2 * r ∨ (2 * r = 2 ^ drop ∧ q % 2 = 1) then q + 1 else q

/-- `RNE_f64(y / 2^f)` and `RNE_f32(y / 2^f)`: the nearest pattern, ties to even, +0.0 for zero (R13, R168).
The spec uses it only where neither overflow nor a subnormal result can arise (R13: notes/assumptions/10.md). A significand
that carries out of the top raises the exponent by one, since the exponent field stands just above the fraction. -/
def roundToFloat (fmt : FloatFmt) (y : Int) (f : Nat) : fmt.Pattern :=
  let n := y.natAbs
  if n = 0 then 0
  else
    let sig := roundSignificand fmt.fracBits n
    let exp := n.log2 + fmt.bias - f
    let sign := if y < 0 then 2 ^ (fmt.bits - 1) else 0
    BitVec.ofNat fmt.bits (sign + exp * 2 ^ fmt.fracBits + sig - 2 ^ fmt.fracBits)

/-- MINF_T = RNE_f64(value_T(MIN_T)) (R133). -/
def minF (t : CType) : FloatFmt.f64.Pattern :=
  roundToFloat .f64 (intOf t (minPattern t)) t.fracBits

/-- MAXF_T = RNE_f64(value_T(MAX_T)) (R133). -/
def maxF (t : CType) : FloatFmt.f64.Pattern :=
  roundToFloat .f64 (intOf t (maxPattern t)) t.fracBits

end Machine

end Sys2Proof
end

