-- ==== Sys2Proof/Machine/State.lean ====
section
/-! DEFINITION. The block's ports and the requests presented to it, the reasons a read of an output port can
stop, and the machine after reset (10_state.md sections 1 and 2, 70_reset_and_hazards.md). -/

namespace Sys2Proof.Machine

/-- A request: the command word and the two operand words, presented together (R40, R64). -/
structure Request where
  cmd : CmdWord
  a : PortWord
  b : PortWord
  deriving DecidableEq, Repr

/-- The block: its five ports (R40) and the requests presented and not yet answered, oldest first (R41, R345).
The block has no other state (R30 to R34, R56). `none` on an output port is the spec's "holds no value"
(R57, R313), not a missing reset value: notes/assumptions/3.md. -/
structure State where
  /-- Port CMD: the command word of the request sampled last. -/
  cmd : CmdWord
  /-- Port A: the first operand word of that request. -/
  a : PortWord
  /-- Port B: the second operand word of that request. -/
  b : PortWord
  /-- Port RES: the result word of the response, or no value. -/
  res : Option PortWord
  /-- Port STATUS: the status code of the response, or no value. -/
  status : Option StatusWord
  /-- The requests presented and not yet answered, oldest first. -/
  pending : List Request
  deriving DecidableEq, Repr

/-- Why reading an output port stops (93_implementation_defined.md items 9 and 10). No step raises one of these:
what the spec calls a fault of the block is a response with a nonzero status code, a next state. -/
inductive Fault where
  /-- Raised by `State.readRes` when RES holds no value: after a fault (R313), after reset (R57), when idle (R324).
  Safe: the reader stops where it would otherwise have to assume a value. -/
  | resHoldsNoValue
  /-- Raised by `State.readStatus` when STATUS holds no value: after reset (R57), when idle (R324).
  Safe: the reader stops where it would otherwise have to assume a value. -/
  | statusHoldsNoValue
  deriving DecidableEq, Repr

/-- Why a step can have no meaning. -/
inductive Refusal where
  /-- Raised by an arm of exec whose command has no meaning in the model; no arm does. Safe: the machine stops. -/
  | notModelled (mnemonic : String)
  deriving DecidableEq, Repr

/-- The faults the block reports in STATUS (60_exceptions.md R311). -/
inductive StatusFault where
  | illegalCmd
  | nanInput
  | shiftRange
  deriving DecidableEq, Repr

/-- The block after reset: no request waits, RES and STATUS hold no value (R57, R340, R341). The input ports are
driven by the host; the spec gives them no value and the model takes zero
(DESIGN CHOICE, unsafe: notes/assumptions/2.md). -/
def State.reset : State where
  cmd := 0
  a := 0
  b := 0
  res := none
  status := none
  pending := []

end Sys2Proof.Machine
end

