-- ==== Sys2Proof/Config.lean ====
section
/-! DEFINITION. The parameters of the block that are not part of a Certum layout (00_scope.md R9).
The spec leaves no parameter open (92_eei_decisions.md), so nothing here is a free value. -/

namespace Sys2Proof.Config

/-- The encoder's fraction resolution in bits: the float's fraction is first rounded to this many (R9, R163). -/
def encFractionBits : Nat := 64

/-- The width of the wide integer; a wide shift by this amount or more is a fault (R9, R274). -/
def wideBits : Nat := 256

/-- The width of one word of the wide integer (R9, R54). -/
def wideWordBits : Nat := 128

end Sys2Proof.Config
end

