-- ==== Sys2Proof/Machine/WideWord.lean ====
section
/-! DEFINITION. The 256-bit wide integer as an ordered pair of 128-bit words and its word-pair datapaths
(10_state.md R54, 45_wide_integer.md R273 to R275, R280). -/

namespace Sys2Proof.Machine

/-- A wide integer, value hi * 2^128 + lo (R54). -/
structure Wide where
  hi : HalfWord
  lo : HalfWord
  deriving DecidableEq, Repr

/-- The wide integer on a port: hi is bits 255..128, lo bits 127..0 (R54). -/
def Wide.ofWord (w : PortWord) : Wide where
  hi := w.extractLsb' 128 128
  lo := w.extractLsb' 0 128

/-- A wide integer as a port word (R54). -/
def Wide.toWord (x : Wide) : PortWord :=
  x.hi ++ x.lo

/-- The value of a wide integer (R54). -/
def Wide.toNat (x : Wide) : Nat :=
  x.hi.toNat * 2 ^ 128 + x.lo.toNat

/-- The wide integer of value 0. -/
def Wide.zero : Wide :=
  ⟨0, 0⟩

/-- The wide integer of value 2^256 - 1. -/
def Wide.allOnes : Wide :=
  ⟨BitVec.allOnes 128, BitVec.allOnes 128⟩

/-- Saturating add on word pairs: the low carry goes into the high word, a carry out of the high word saturates
the whole value (R273). -/
def Wide.add (x y : Wide) : Wide :=
  let c := if 2 ^ 128 ≤ x.lo.toNat + y.lo.toNat then 1 else 0
  let h := x.hi.toNat + y.hi.toNat + c
  if 2 ^ 128 ≤ h then Wide.allOnes else ⟨BitVec.ofNat 128 h, x.lo + y.lo⟩

/-- Unsigned comparison of word pairs: the high words first, then the low words (R273, R282). -/
def Wide.lt (x y : Wide) : Bool :=
  x.hi.toNat < y.hi.toNat || (x.hi == y.hi && x.lo.toNat < y.lo.toNat)

/-- Saturating subtract on word pairs: the operands are compared first, then the low borrow is taken from the
high word (R273). -/
def Wide.sub (x y : Wide) : Wide :=
  if x.lt y then Wide.zero
  else
    let bw : HalfWord := if x.lo.toNat < y.lo.toNat then 1 else 0
    ⟨x.hi - y.hi - bw, x.lo - y.lo⟩

/-- The sign of x - y (R282). -/
def Wide.compare (x y : Wide) : Int :=
  if x.lt y then -1 else if y.lt x then 1 else 0

/-- Shift left by k below 256 on word pairs (R274). -/
def Wide.shl (x : Wide) (k : Nat) : Wide :=
  if k = 0 then x
  else if k < Config.wideWordBits then ⟨(x.hi <<< k) ||| (x.lo >>> (Config.wideWordBits - k)), x.lo <<< k⟩
  else ⟨x.lo <<< (k - Config.wideWordBits), 0⟩

/-- Shift right by k below 256 on word pairs (R275). -/
def Wide.shr (x : Wide) (k : Nat) : Wide :=
  if k = 0 then x
  else if k < Config.wideWordBits then ⟨x.hi >>> k, (x.lo >>> k) ||| (x.hi <<< (Config.wideWordBits - k))⟩
  else ⟨0, x.hi >>> (k - Config.wideWordBits)⟩

/-- The widening multiply as the schoolbook multiply of R280: four 64 × 64 → 128 partial products, the middle sum
added across the word boundary with its carries. -/
def Wide.mul (a b : HalfWord) : Wide :=
  let a1 := a.toNat / 2 ^ 64
  let a0 := a.toNat % 2 ^ 64
  let b1 := b.toNat / 2 ^ 64
  let b0 := b.toNat % 2 ^ 64
  let mid := a1 * b0 + a0 * b1
  let low := a0 * b0 + mid % 2 ^ 64 * 2 ^ 64
  let high := a1 * b1 + mid / 2 ^ 64 + low / 2 ^ 128
  ⟨BitVec.ofNat 128 high, BitVec.ofNat 128 low⟩

end Sys2Proof.Machine
end

