-- ==== Sys2Proof/Machine/Operands.lean ====
section
/-! DEFINITION. Every operand form and every result form of the ports (10_state.md R42, R43; 30_encoding.md R90). -/

namespace Sys2Proof.Machine

/-- A Certum operand of type T on port A: `A[N-1:0]`, the bits above ignored (R42). -/
def certumA (t : CType) (s : State) : t.Pattern :=
  s.a.setWidth t.bits

/-- A Certum operand of type T on port B: `B[N-1:0]`, the bits above ignored (R42). -/
def certumB (t : CType) (s : State) : t.Pattern :=
  s.b.setWidth t.bits

/-- A float operand on port A: `A[63:0]` or `A[31:0]` (R42, R160). -/
def floatA (fmt : FloatFmt) (s : State) : fmt.Pattern :=
  s.a.setWidth fmt.bits

/-- A wide operand on port A: hi = `A[255:128]`, lo = `A[127:0]` (R42, R54). -/
def wideA (s : State) : Wide :=
  Wide.ofWord s.a

/-- A wide operand on port B (R42, R54). -/
def wideB (s : State) : Wide :=
  Wide.ofWord s.b

/-- A 128-bit operand on port A: `A[127:0]` (R42). -/
def halfA (s : State) : HalfWord :=
  s.a.extractLsb' 0 128

/-- A 128-bit operand on port B: `B[127:0]` (R42). -/
def halfB (s : State) : HalfWord :=
  s.b.extractLsb' 0 128

/-- A wide shift amount: the whole of B, unsigned (R42). -/
def shiftAmount (s : State) : Nat :=
  s.b.toNat

/-- A result zero-extended to the result port (R43). -/
def zeroExtended {n : Nat} (r : BitVec n) : PortWord :=
  r.setWidth 256

/-- A result of {-1, 0, +1} on the result port: -1 is all ones (R43). -/
def triResult (x : Int) : PortWord :=
  BitVec.ofInt 256 x

/-- A 0/1 result on the result port (R43). -/
def bitResult (c : Bool) : PortWord :=
  if c then 1 else 0

end Sys2Proof.Machine
end

