-- ==== Sys2Proof/Machine/Flags.lean ====
section
/-! DEFINITION. The block has no flags and no condition codes (10_state.md R33); the one indication a response
carries is its status code (60_exceptions.md R311). -/

namespace Sys2Proof.Machine

/-- The status code of a request that completes (R311). -/
def statusOk : StatusWord := 0

/-- The status code of a fault (R311). -/
def StatusFault.code : StatusFault → StatusWord
  | .illegalCmd => 1
  | .nanInput => 2
  | .shiftRange => 3

end Sys2Proof.Machine
end

