-- ==== Sys2Proof/Machine/Ops.lean ====
section
/-! DEFINITION. What can happen to the ports: sampling a request, delivering a result, delivering a fault, idling;
and what the host does at them: presenting a request, reading a response, resetting the block. -/

namespace Sys2Proof.Machine

/-- Completing a request: `RES <- v`, zero-extended, with STATUS 0 (00_scope.md R14, 10_state.md R40, R64). -/
def State.complete (s : State) (v : PortWord) : State :=
  { s with res := some v, status := some statusOk }

/-- Taking an exception: `raise <Fault>` completes the request with the fault's status code, and RES holds no value;
nothing else changes (R14, R310, R311, R313). The block has no trap entry, saves nothing, and has no return from an
exception (R316). -/
def State.raiseFault (s : State) (c : StatusFault) : State :=
  { s with res := none, status := some c.code }

/-- The response to an illegal command word: ILLEGAL_CMD, with no operand read (R89, R311, R314). -/
def State.rejectIllegal (s : State) : State :=
  s.raiseFault .illegalCmd

/-- The oldest request is sampled: CMD, A and B together (R64). -/
def State.sample (s : State) (r : Request) (rest : List Request) : State :=
  { s with cmd := r.cmd, a := r.a, b := r.b, pending := rest }

/-- With no request the block is idle and retains nothing, so RES and STATUS hold no value
(R324; DEDUCED, safe: notes/assumptions/4.md). -/
def State.idle (s : State) : State :=
  { s with res := none, status := none }

/-- The host presents a request, also while earlier ones wait for their responses (R31, R345). -/
def State.present (s : State) (r : Request) : State :=
  { s with pending := s.pending ++ [r] }

/-- The host reads STATUS; a reader must not assume a value where there is none (R57). -/
def State.readStatus (s : State) : Except Fault StatusWord :=
  match s.status with
  | some c => .ok c
  | none => .error .statusHoldsNoValue

/-- The host reads RES; a reader must not assume a value where there is none (R57, R313). -/
def State.readRes (s : State) : Except Fault PortWord :=
  match s.res with
  | some v => .ok v
  | none => .error .resHoldsNoValue

/-- The host resets the block: requests in flight get no response, RES and STATUS hold no value (R57, R340, R341).
The input ports are the host's and stay (DEDUCED: notes/assumptions/8.md). -/
def State.resetBlock (s : State) : State :=
  { s with res := none, status := none, pending := [] }

end Sys2Proof.Machine
end

