-- ==== Sys2Proof/Machine/Accessors.lean ====
section
/-! DEFINITION. The layout accessors FROMBITS, SIGNBIT, SIGN, INTC, FRACC (41_layout_constants.md section 1). -/

namespace Sys2Proof.Machine

/-- The integer component: the raw integer field, right-justified by N-bit shifts (R123). -/
def intComponent (t : CType) (b : t.Pattern) : t.Pattern :=
  if t.signed then (b <<< 1) >>> (t.bits - t.intBits) else b >>> (t.bits - t.intBits)

/-- The fraction component: the raw fraction field, left-justified to N bits (R124). -/
def fracComponent (t : CType) (b : t.Pattern) : t.Pattern :=
  if t.signed then b <<< (1 + t.intBits) else b <<< t.intBits

/-- The sign in {-1, 0, +1} (R122). -/
def signOf (t : CType) (b : t.Pattern) : Int :=
  if b = 0 then 0 else if isNegative t b then -1 else 1

/-- FROMBITS.T (R120). -/
def execFromBits (t : CType) (s : State) : Host.Outcome State Fault Refusal :=
  .next (s.complete (zeroExtended (certumA t s)))

/-- SIGNBIT.T: 0 for an unsigned type (R121). -/
def execSignBit (t : CType) (s : State) : Host.Outcome State Fault Refusal :=
  .next (s.complete (bitResult (isNegative t (certumA t s))))

/-- SIGN.T (R122). -/
def execSign (t : CType) (s : State) : Host.Outcome State Fault Refusal :=
  .next (s.complete (triResult (signOf t (certumA t s))))

/-- INTC.T (R123). -/
def execIntC (t : CType) (s : State) : Host.Outcome State Fault Refusal :=
  .next (s.complete (zeroExtended (intComponent t (certumA t s))))

/-- FRACC.T (R124). -/
def execFracC (t : CType) (s : State) : Host.Outcome State Fault Refusal :=
  .next (s.complete (zeroExtended (fracComponent t (certumA t s))))

end Sys2Proof.Machine
end

