-- ==== Sys2Proof/Machine/Arith.lean ====
section
/-! DEFINITION. Saturating arithmetic, equality and ordering: NEG, ADD, SUB, MUL, EQ, CMP
(44_saturating_arith.md). -/

namespace Sys2Proof.Machine

/-- Saturating negate: -MIN is MAX, and every unsigned result is 0 (R231). -/
def negate (t : CType) (a : t.Pattern) : t.Pattern :=
  if t.signed then
    if a = minPattern t then maxPattern t else ~~~a + 1
  else 0

/-- The magnitude MUL takes of an operand: that of MIN_T is MAXmag_T for a signed type (R234). -/
def mulMagnitude (t : CType) (a : t.Pattern) : Nat :=
  if t.signed && a == minPattern t then maxMag t else magnitude t a

/-- The product of two magnitudes, rescaled: `(ma · mb) >> F`. A native double-width product for N up to 64; for
N = 128 the wide multiply and the wide shift by F (R235, R239). -/
def rescaledProduct (t : CType) (ma mb : Nat) : Nat :=
  if t.width = .w128 then ((Wide.mul (BitVec.ofNat 128 ma) (BitVec.ofNat 128 mb)).shr t.fracBits).toNat
  else ma * mb / 2 ^ t.fracBits

/-- The saturating product of two patterns (R236). -/
def multiply (t : CType) (a b : t.Pattern) : t.Pattern :=
  signMagnitude t (isNegative t a ^^ isNegative t b) (rescaledProduct t (mulMagnitude t a) (mulMagnitude t b))

/-- NEG.T (R231). -/
def execNeg (t : CType) (s : State) : Host.Outcome State Fault Refusal :=
  .next (s.complete (zeroExtended (negate t (certumA t s))))

/-- ADD.T (R232). -/
def execAdd (t : CType) (s : State) : Host.Outcome State Fault Refusal :=
  .next (s.complete (zeroExtended (saturate t (intOf t (certumA t s) + intOf t (certumB t s)))))

/-- SUB.T (R233). -/
def execSub (t : CType) (s : State) : Host.Outcome State Fault Refusal :=
  .next (s.complete (zeroExtended (saturate t (intOf t (certumA t s) - intOf t (certumB t s)))))

/-- MUL.T (R236). -/
def execMul (t : CType) (s : State) : Host.Outcome State Fault Refusal :=
  .next (s.complete (zeroExtended (multiply t (certumA t s) (certumB t s))))

/-- EQ.T (R237). -/
def execEqual (t : CType) (s : State) : Host.Outcome State Fault Refusal :=
  .next (s.complete (bitResult (certumA t s == certumB t s)))

/-- CMP.T: the sign of the difference of the values (R238). -/
def execCompare (t : CType) (s : State) : Host.Outcome State Fault Refusal :=
  .next (s.complete (triResult (intOf t (certumA t s) - intOf t (certumB t s)).sign))

end Sys2Proof.Machine
end

