-- ==== Sys2Proof/Machine/Convert.lean ====
section
/-! DEFINITION. The cross-precision converter CONV (43_cross_precision.md). -/

namespace Sys2Proof.Machine

/-- Moving a magnitude from one fraction resolution to another: a left shift by F_B - F_A when widening, a right
shift that drops the low bits when narrowing (R203, R204). -/
def rescale (fa fb m : Nat) : Nat :=
  if fa ≤ fb then m * 2 ^ (fb - fa) else m / 2 ^ (fa - fb)

/-- The conversion of R206: the bounds map to the bounds first (R201), then sign and magnitude (R202), the shift,
and the clamp (R205). -/
def convert (ta tb : CType) (b : ta.Pattern) : tb.Pattern :=
  if b = minPattern ta then minPattern tb
  else if b = maxPattern ta then maxPattern tb
  else signMagnitude tb (isNegative ta b) (rescale ta.fracBits tb.fracBits (magnitude ta b))

/-- CONV.TA.TB (R206). -/
def execConv (ta tb : CType) (s : State) : Host.Outcome State Fault Refusal :=
  .next (s.complete (zeroExtended (convert ta tb (certumA ta s))))

end Sys2Proof.Machine
end

