-- ==== Sys2Proof/Machine/Codec.lean ====
section
/-! DEFINITION. The float codec ENC and DEC (42_float_codec.md). -/

namespace Sys2Proof.Machine

/-- ENC step 1 for a finite input, in float units: clamped to [MINF_T, MAXF_T] (R162). -/
def encClamp (t : CType) (v : Int) : Int :=
  clampInt v (floatVal .f64 (minF t)) (floatVal .f64 (maxF t))

/-- ENC step 2, the fraction part of the split of `a` float units, rounded to 64 bits half away from zero (R163). -/
def encFraction (a : Nat) : Nat :=
  roundHalfAway (a % floatUnit * 2 ^ Config.encFractionBits) floatUnit

/-- ENC step 3: the 64-bit fraction rounded to F bits half away from zero, or shifted left exactly when F is 64 or
more (R164). -/
def encRound (f fp : Nat) : Nat :=
  if f < Config.encFractionBits then
    (fp + 2 ^ (Config.encFractionBits - 1 - f)) / 2 ^ (Config.encFractionBits - f)
  else fp * 2 ^ (f - Config.encFractionBits)

/-- ENC steps 2 to 4: the magnitude of `a` float units, with the carry of the rounded fraction (R163 to R165). -/
def encMagnitude (t : CType) (a : Nat) : Nat :=
  a / floatUnit * 2 ^ t.fracBits + encRound t.fracBits (encFraction a)

/-- ENC of a finite value in float units; the sign is that of the value, so -0.0 is not negative (R162 to R165). -/
def encodeFinite (t : CType) (v : Int) : t.Pattern :=
  signMagnitude t (t.signed && decide (v < 0)) (encMagnitude t (encClamp t v).natAbs)

/-- ENC of a pattern that is no NaN: the infinities give the bounds directly (R162, R166). -/
def encodeFloat (t : CType) (fmt : FloatFmt) (p : fmt.Pattern) : t.Pattern :=
  if isInf fmt p then (if floatSign fmt p then minPattern t else maxPattern t)
  else encodeFinite t (floatVal fmt p)

/-- ENC.T.fmt: a NaN of either format faults with NAN_INPUT (R166). -/
def execEnc (t : CType) (fmt : FloatFmt) (s : State) : Host.Outcome State Fault Refusal :=
  if isNaN fmt (floatA fmt s) then .next (s.raiseFault .nanInput)
  else .next (s.complete (zeroExtended (encodeFloat t fmt (floatA fmt s))))

/-- The 64-bit type of the same signedness, through which DEC takes a 128-bit operand (R167, R169). -/
def decType (t : CType) : CType :=
  match t.width with
  | .w128 => ⟨.w64, t.signed⟩
  | .w8 | .w16 | .w32 | .w64 => t

/-- The pattern whose value DEC rounds: the operand itself, or a 128-bit operand narrowed to 64 bits
(R167, R169). -/
def decOperand (t : CType) (b : t.Pattern) : (decType t).Pattern :=
  if t.width = .w128 then convert t (decType t) b else b.setWidth (decType t).bits

/-- The float pattern DEC gives for a pattern (R167, R168). -/
def decodeFloat (t : CType) (fmt : FloatFmt) (b : t.Pattern) : fmt.Pattern :=
  roundToFloat fmt (intOf (decType t) (decOperand t b)) (decType t).fracBits

/-- DEC.T.fmt (R167). -/
def execDec (t : CType) (fmt : FloatFmt) (s : State) : Host.Outcome State Fault Refusal :=
  .next (s.complete (zeroExtended (decodeFloat t fmt (certumA t s))))

end Sys2Proof.Machine
end

