-- ==== Sys2Proof/Machine/Constants.lean ====
section
/-! DEFINITION. The named constants LDMIN, LDMAX, LDGRAIN, LDPI, LDE, LDMINF, LDMAXF
(41_layout_constants.md sections 2 to 4). -/

namespace Sys2Proof.Machine

/-- LDMIN.T (R126). -/
def execLdMin (t : CType) (s : State) : Host.Outcome State Fault Refusal :=
  .next (s.complete (zeroExtended (minPattern t)))

/-- LDMAX.T (R127). -/
def execLdMax (t : CType) (s : State) : Host.Outcome State Fault Refusal :=
  .next (s.complete (zeroExtended (maxPattern t)))

/-- LDGRAIN.T (R128). -/
def execLdGrain (t : CType) (s : State) : Host.Outcome State Fault Refusal :=
  .next (s.complete (zeroExtended (grainPattern t)))

/-- LDPI.T (R131). -/
def execLdPi (t : CType) (s : State) : Host.Outcome State Fault Refusal :=
  .next (s.complete (zeroExtended (piPattern t)))

/-- LDE.T (R132). -/
def execLdE (t : CType) (s : State) : Host.Outcome State Fault Refusal :=
  .next (s.complete (zeroExtended (ePattern t)))

/-- LDMINF.T, a binary64 pattern (R134). -/
def execLdMinF (t : CType) (s : State) : Host.Outcome State Fault Refusal :=
  .next (s.complete (zeroExtended (minF t)))

/-- LDMAXF.T, a binary64 pattern (R135). -/
def execLdMaxF (t : CType) (s : State) : Host.Outcome State Fault Refusal :=
  .next (s.complete (zeroExtended (maxF t)))

end Sys2Proof.Machine
end

