-- ==== Sys2Proof/Machine/WideCommands.lean ====
section
/-! DEFINITION. The wide-integer commands (45_wide_integer.md). -/

namespace Sys2Proof.Machine

/-- WFROM: hi = 0, lo = A[127:0] (R270). -/
def execWFrom (s : State) : Host.Outcome State Fault Refusal :=
  .next (s.complete (Wide.toWord ⟨0, halfA s⟩))

/-- WADD (R271). -/
def execWAdd (s : State) : Host.Outcome State Fault Refusal :=
  .next (s.complete ((wideA s).add (wideB s)).toWord)

/-- WSUB (R272). -/
def execWSub (s : State) : Host.Outcome State Fault Refusal :=
  .next (s.complete ((wideA s).sub (wideB s)).toWord)

/-- WSHL: a shift by 256 or more faults with SHIFT_RANGE (R274). -/
def execWShl (s : State) : Host.Outcome State Fault Refusal :=
  if Config.wideBits ≤ shiftAmount s then .next (s.raiseFault .shiftRange)
  else .next (s.complete ((wideA s).shl (shiftAmount s)).toWord)

/-- WSHR: a shift by 256 or more faults with SHIFT_RANGE (R275). -/
def execWShr (s : State) : Host.Outcome State Fault Refusal :=
  if Config.wideBits ≤ shiftAmount s then .next (s.raiseFault .shiftRange)
  else .next (s.complete ((wideA s).shr (shiftAmount s)).toWord)

/-- WAND (R276). -/
def execWAnd (s : State) : Host.Outcome State Fault Refusal :=
  .next (s.complete (s.a &&& s.b))

/-- WOR (R277). -/
def execWOr (s : State) : Host.Outcome State Fault Refusal :=
  .next (s.complete (s.a ||| s.b))

/-- WXOR (R278). -/
def execWXor (s : State) : Host.Outcome State Fault Refusal :=
  .next (s.complete (s.a ^^^ s.b))

/-- WNOT: B is not read (R279). -/
def execWNot (s : State) : Host.Outcome State Fault Refusal :=
  .next (s.complete (~~~s.a))

/-- WMUL (R281). -/
def execWMul (s : State) : Host.Outcome State Fault Refusal :=
  .next (s.complete (Wide.mul (halfA s) (halfB s)).toWord)

/-- WCMP (R282). -/
def execWCmp (s : State) : Host.Outcome State Fault Refusal :=
  .next (s.complete (triResult ((wideA s).compare (wideB s))))

end Sys2Proof.Machine
end

