-- ==== Sys2Proof/Machine/Dispatch.lean ====
section
/-! DEFINITION. One arm per command (30_encoding.md R88). -/

namespace Sys2Proof.Machine

/-- The meaning of a command on the operand words of the sampled request (10_state.md R41). -/
def exec (i : Instr) (s : State) : Host.Outcome State Fault Refusal :=
  match i with
  | .fromBits t => Sys2Proof.Machine.execFromBits t s
  | .signBit t => Sys2Proof.Machine.execSignBit t s
  | .sign t => Sys2Proof.Machine.execSign t s
  | .intC t => Sys2Proof.Machine.execIntC t s
  | .fracC t => Sys2Proof.Machine.execFracC t s
  | .ldMin t => Sys2Proof.Machine.execLdMin t s
  | .ldMax t => Sys2Proof.Machine.execLdMax t s
  | .ldGrain t => Sys2Proof.Machine.execLdGrain t s
  | .ldPi t => Sys2Proof.Machine.execLdPi t s
  | .ldE t => Sys2Proof.Machine.execLdE t s
  | .ldMinF t => Sys2Proof.Machine.execLdMinF t s
  | .ldMaxF t => Sys2Proof.Machine.execLdMaxF t s
  | .enc t fmt => Sys2Proof.Machine.execEnc t fmt s
  | .dec t fmt => Sys2Proof.Machine.execDec t fmt s
  | .conv ta tb => Sys2Proof.Machine.execConv ta tb s
  | .neg t => Sys2Proof.Machine.execNeg t s
  | .add t => Sys2Proof.Machine.execAdd t s
  | .sub t => Sys2Proof.Machine.execSub t s
  | .mul t => Sys2Proof.Machine.execMul t s
  | .equal t => Sys2Proof.Machine.execEqual t s
  | .compare t => Sys2Proof.Machine.execCompare t s
  | .wFrom => Sys2Proof.Machine.execWFrom s
  | .wAdd => Sys2Proof.Machine.execWAdd s
  | .wSub => Sys2Proof.Machine.execWSub s
  | .wShl => Sys2Proof.Machine.execWShl s
  | .wShr => Sys2Proof.Machine.execWShr s
  | .wAnd => Sys2Proof.Machine.execWAnd s
  | .wOr => Sys2Proof.Machine.execWOr s
  | .wXor => Sys2Proof.Machine.execWXor s
  | .wNot => Sys2Proof.Machine.execWNot s
  | .wMul => Sys2Proof.Machine.execWMul s
  | .wCmp => Sys2Proof.Machine.execWCmp s

end Sys2Proof.Machine
end

