-- ==== Sys2Proof/Machine/Step.lean ====
section
/-! DEFINITION. One step answers the oldest request (10_state.md R41, 20_memory.md R66). -/

namespace Sys2Proof.Machine

/-- The response to the request on the input ports: ILLEGAL_CMD is decided from the command word alone, before any
operand is read (30_encoding.md R89, 60_exceptions.md R314). -/
def answer (s : State) : Host.Outcome State Fault Refusal :=
  match decode s.cmd with
  | .ok i => exec i s
  | .error _ => .next s.rejectIllegal

/-- One step: the oldest request is sampled and answered; with no request the block is idle (R41, R64, R324).
The step takes no account of how long a response takes (R346; notes/assumptions/6.md). -/
def step (s : State) : Host.Outcome State Fault Refusal :=
  match s.pending with
  | [] => .next s.idle
  | r :: rest => answer (s.sample r rest)

/-- The state with a command word as the next request to be answered. The block fetches nothing (R31): a command
comes with its request, so the word becomes the command word of the oldest request, which keeps its operands, or of
a request with the operand words now on A and B if none waits (notes/assumptions/1.md). -/
def State.withFetchWord (s : State) (nbits w : Nat) : State :=
  let cmd : CmdWord := BitVec.ofNat 32 (w % 2 ^ nbits)
  match s.pending with
  | [] => { s with pending := [⟨cmd, s.a, s.b⟩] }
  | r :: rest => { s with pending := { r with cmd } :: rest }

end Sys2Proof.Machine
end

