-- ==== Sys2Proof/Machine/Assembler.lean ====
section
/-! DEFINITION. The assembly syntax of the spec: mnemonics with type suffixes, pseudo-instructions, and the lines of
a host program as text (30_encoding.md R94, R95, R97). -/

namespace Sys2Proof

/-- The ten Certum types (00_scope.md R8, R15). -/
def CType.all : List CType :=
  [true, false].flatMap fun signed => [Width.w8, .w16, .w32, .w64, .w128].map fun width => ⟨width, signed⟩

/-- The two float formats (R85). -/
def FloatFmt.all : List FloatFmt :=
  [.f64, .f32]

/-- Every command the block has: the typed commands, ENC and DEC, CONV within a class, the wide commands (R87, R88). -/
def Instr.all : List Instr :=
  ([Instr.fromBits, .signBit, .sign, .intC, .fracC, .ldMin, .ldMax, .ldGrain, .ldPi, .ldE, .ldMinF, .ldMaxF,
      .neg, .add, .sub, .mul, .equal, .compare].flatMap fun mk => CType.all.map mk) ++
  ([Instr.enc, .dec].flatMap fun mk => CType.all.flatMap fun t => FloatFmt.all.map (mk t)) ++
  ((CType.all.flatMap fun ta => CType.all.map (Instr.conv ta)).filter Instr.wellFormed) ++
  [.wFrom, .wAdd, .wSub, .wShl, .wShr, .wAnd, .wOr, .wXor, .wNot, .wMul, .wCmp]

/-- The name of a Certum type (R15, R94). -/
def CType.name (t : CType) : String :=
  match t.width, t.signed with
  | .w8, true => "s8"
  | .w16, true => "s16"
  | .w32, true => "s32"
  | .w64, true => "s64"
  | .w128, true => "s128"
  | .w8, false => "u8"
  | .w16, false => "u16"
  | .w32, false => "u32"
  | .w64, false => "u64"
  | .w128, false => "u128"

/-- The suffix of a float format (R94). -/
def FloatFmt.name : FloatFmt → String
  | .f64 => "f64"
  | .f32 => "f32"

/-- A command as the assembler writes it, `MNEMONIC[.type][.type2|.fmt]` (R94). -/
def Instr.asm : Instr → String
  | .fromBits t => "FROMBITS." ++ t.name
  | .signBit t => "SIGNBIT." ++ t.name
  | .sign t => "SIGN." ++ t.name
  | .intC t => "INTC." ++ t.name
  | .fracC t => "FRACC." ++ t.name
  | .ldMin t => "LDMIN." ++ t.name
  | .ldMax t => "LDMAX." ++ t.name
  | .ldGrain t => "LDGRAIN." ++ t.name
  | .ldPi t => "LDPI." ++ t.name
  | .ldE t => "LDE." ++ t.name
  | .ldMinF t => "LDMINF." ++ t.name
  | .ldMaxF t => "LDMAXF." ++ t.name
  | .enc t fmt => "ENC." ++ t.name ++ "." ++ fmt.name
  | .dec t fmt => "DEC." ++ t.name ++ "." ++ fmt.name
  | .conv ta tb => "CONV." ++ ta.name ++ "." ++ tb.name
  | .neg t => "NEG." ++ t.name
  | .add t => "ADD." ++ t.name
  | .sub t => "SUB." ++ t.name
  | .mul t => "MUL." ++ t.name
  | .equal t => "EQ." ++ t.name
  | .compare t => "CMP." ++ t.name
  | .wFrom => "WFROM"
  | .wAdd => "WADD"
  | .wSub => "WSUB"
  | .wShl => "WSHL"
  | .wShr => "WSHR"
  | .wAnd => "WAND"
  | .wOr => "WOR"
  | .wXor => "WXOR"
  | .wNot => "WNOT"
  | .wMul => "WMUL"
  | .wCmp => "WCMP"

/-- How many of the operands A and B a command reads: the forms of R94 (R63). -/
def Instr.arity : Instr → Nat
  | .ldMin _ | .ldMax _ | .ldGrain _ | .ldPi _ | .ldE _ | .ldMinF _ | .ldMaxF _ => 0
  | .fromBits _ | .signBit _ | .sign _ | .intC _ | .fracC _ => 1
  | .enc _ _ | .dec _ _ | .conv _ _ | .neg _ | .wFrom | .wNot => 1
  | .add _ | .sub _ | .mul _ | .equal _ | .compare _ => 2
  | .wAdd | .wSub | .wShl | .wShr | .wAnd | .wOr | .wXor | .wMul | .wCmp => 2

/-- The pseudo-instructions (R95). -/
inductive Pseudo where
  | widen (ta tb : CType)
  | narrow (ta tb : CType)
  | fromF64 (t : CType)
  | fromF32 (t : CType)
  | toF64 (t : CType)
  | toF32 (t : CType)
  deriving DecidableEq, Repr

/-- The expansion of a pseudo-instruction; the assembler refuses WIDEN and NARROW where the condition of R95 fails. -/
def Pseudo.expand : Pseudo → Option Instr
  | .widen ta tb => if ta.bits < tb.bits ∧ ta.signed = tb.signed then some (.conv ta tb) else none
  | .narrow ta tb => if tb.bits < ta.bits ∧ ta.signed = tb.signed then some (.conv ta tb) else none
  | .fromF64 t => some (.enc t .f64)
  | .fromF32 t => some (.enc t .f32)
  | .toF64 t => some (.dec t .f64)
  | .toF32 t => some (.dec t .f32)

/-- A pseudo-instruction as the assembler writes it (R95). -/
def Pseudo.asm : Pseudo → String
  | .widen ta tb => "WIDEN." ++ ta.name ++ "." ++ tb.name
  | .narrow ta tb => "NARROW." ++ ta.name ++ "." ++ tb.name
  | .fromF64 t => "FROMF64." ++ t.name
  | .fromF32 t => "FROMF32." ++ t.name
  | .toF64 t => "TOF64." ++ t.name
  | .toF32 t => "TOF32." ++ t.name

/-- Every pseudo-instruction (R95). -/
def Pseudo.all : List Pseudo :=
  ([Pseudo.widen, .narrow].flatMap fun mk => CType.all.flatMap fun ta => CType.all.map (mk ta)) ++
  ([Pseudo.fromF64, .fromF32, .toF64, .toF32].flatMap fun mk => CType.all.map mk)

/-- The command a mnemonic with its suffixes assembles to, a pseudo-instruction expanded (R94, R95). `CONV.TA.TB` with
TA and TB of different signedness assembles to nothing: the rules say that the assembler refuses only of WIDEN and
NARROW, and the word of such a CONV is illegal (R92) (DESIGN CHOICE, safe: notes/assumptions/17.md). -/
def assembleMnemonic (text : String) : Option Instr :=
  match Instr.all.find? (fun i => i.asm == text) with
  | some i => some i
  | none => (Pseudo.all.find? (fun p => p.asm == text)).bind Pseudo.expand

/-- A line of a host program: the directive LI, or a command with its destination and source names (R94, R97). -/
inductive Line where
  | li (name : String) (value : PortWord)
  | command (i : Instr) (dst : String) (srcs : List String)
  deriving DecidableEq, Repr

/-- The value of a digit in a base up to 16. -/
def digitValue (base : Nat) (c : Char) : Option Nat :=
  let d :=
    if '0' ≤ c ∧ c ≤ '9' then some (c.toNat - '0'.toNat)
    else if 'a' ≤ c ∧ c ≤ 'f' then some (c.toNat - 'a'.toNat + 10)
    else if 'A' ≤ c ∧ c ≤ 'F' then some (c.toNat - 'A'.toNat + 10)
    else none
  d.filter (· < base)

/-- The number a nonempty list of digits writes. -/
def digitsValue (base : Nat) : List Char → Option Nat
  | [] => none
  | cs => cs.foldl (fun acc c => acc.bind fun n => (digitValue base c).map (n * base + ·)) (some 0)

/-- A literal: hexadecimal with `0x` or decimal, below 2^256 (R97). -/
def parseLiteral (cs : List Char) : Option PortWord :=
  let n := match cs with
    | '0' :: 'x' :: hex => digitsValue 16 hex
    | dec => digitsValue 10 dec
  (n.filter (· < 2 ^ 256)).map (BitVec.ofNat 256)

/-- The text of a line before its comment, which starts with `;` (R97). -/
def stripComment (cs : List Char) : List Char :=
  cs.takeWhile (· != ';')

/-- The words of a line: commas and white space part them (R94). -/
def lineWords (cs : List Char) : List (List Char) :=
  let step := fun (acc : List Char × List (List Char)) c =>
    if c == ' ' || c == '\t' || c == ',' then
      (([] : List Char), if acc.1.isEmpty then acc.2 else acc.1.reverse :: acc.2)
    else (c :: acc.1, acc.2)
  let (last, words) := cs.foldl step ([], [])
  (if last.isEmpty then words else last.reverse :: words).reverse

/-- A line from its words; a command names exactly the sources it reads (R94, R97). -/
def lineOfWords : List (List Char) → Option Line
  | ['L', 'I'] :: name :: literal :: [] => (parseLiteral literal).map (Line.li (String.ofList name))
  | mnemonic :: dst :: srcs =>
    match assembleMnemonic (String.ofList mnemonic) with
    | some i => if srcs.length = i.arity then some (.command i (String.ofList dst) (srcs.map String.ofList)) else none
    | none => none
  | _ => none

/-- The lines of a program text; a line with nothing but a comment is skipped, and a line that is no line of the
syntax refuses the program (R94 to R97; notes/assumptions/11.md). -/
def assembleProgram : List (List Char) → Option (List Line)
  | [] => some []
  | text :: rest =>
    match lineWords (stripComment text) with
    | [] => assembleProgram rest
    | words => (lineOfWords words).bind fun line => (assembleProgram rest).map (line :: ·)

end Sys2Proof
end

