-- ==== Sys2Proof/Machine/HostProgram.lean ====
section
/-! DEFINITION. A host that runs a program of lines over the block, one request at a time (30_encoding.md R94, R97;
60_exceptions.md R316, R326; 70_reset_and_hazards.md R344). The bindings are the host's, not the block's. -/

namespace Sys2Proof.Machine

/-- How a host program stands (R326). -/
inductive Standing where
  | running
  /-- Every line has run. -/
  | normalEnd
  /-- A response had a nonzero status code (R326). -/
  | faultState (code : StatusWord)
  /-- A line names a source that nothing has bound; the spec gives such a line no meaning
  (DESIGN CHOICE, safe: notes/assumptions/11.md). -/
  | unboundName (name : String)
  /-- The block gave no response; no step of the model does this. -/
  | noResponse
  deriving DecidableEq, Repr

/-- A host with its program: the block, the host-held values by name, the lines still to run. -/
structure HostState where
  block : State
  bindings : List (String × PortWord)
  lines : List Line
  standing : Standing
  deriving DecidableEq, Repr

/-- A program about to run: no name is bound and the block is just reset (95_test_vectors.md section 8). -/
def HostState.start (lines : List Line) : HostState where
  block := State.reset
  bindings := []
  lines := lines
  standing := .running

/-- The value bound to a name (R94). -/
def valueOf (bindings : List (String × PortWord)) (name : String) : Option PortWord :=
  (bindings.find? (fun b => b.1 == name)).map (·.2)

/-- Leaving a name unbound: an earlier binding of it, if any, goes (R326). -/
def unbindName (bindings : List (String × PortWord)) (name : String) : List (String × PortWord) :=
  bindings.filter (fun b => b.1 != name)

/-- Binding a value to a name; the name's earlier binding, if any, is replaced (R94, R97). -/
def bindName (bindings : List (String × PortWord)) (name : String) (v : PortWord) : List (String × PortWord) :=
  (name, v) :: unbindName bindings name

/-- The operand words of a command line; an operand the command does not read is presented as zero (R94). -/
def operandWords (bindings : List (String × PortWord)) : List String → Except String (PortWord × PortWord)
  | [] => .ok (0, 0)
  | [x] =>
    match valueOf bindings x with
    | some a => .ok (a, 0)
    | none => .error x
  | x :: y :: _ =>
    match valueOf bindings x, valueOf bindings y with
    | some a, some b => .ok (a, b)
    | none, _ => .error x
    | some _, none => .error y

/-- `n` steps of the block. -/
def steps : Nat → State → Host.Outcome State Fault Refusal
  | 0, s => .next s
  | n + 1, s =>
    match step s with
    | .next s' => steps n s'
    | .fault r => .fault r
    | .refused r => .refused r

/-- The host presents a request and waits for its response, which comes after those of the requests already
waiting (R41, R344). -/
def exchange (s : State) (r : Request) : Host.Outcome State Fault Refusal :=
  steps (s.pending.length + 1) (s.present r)

/-- The program ends; no later line runs. -/
def HostState.stop (h : HostState) (st : Standing) : HostState :=
  { h with lines := [], standing := st }

/-- A faulted response ends the program in a fault state: the destination is left unbound, also where an earlier line
had bound it, and no later line runs (R326). -/
def HostState.fault (h : HostState) (dst : String) (code : StatusWord) : HostState :=
  { h with bindings := unbindName h.bindings dst }.stop (.faultState code)

/-- The host takes the response: RES is bound to the destination, or a nonzero status ends the program in a fault
state (R94, R326). -/
def HostState.receive (h : HostState) (dst : String) (s : State) : HostState :=
  let h := { h with block := s }
  match s.status, s.res with
  | some code, some v =>
    if code = statusOk then { h with bindings := bindName h.bindings dst v } else h.fault dst code
  | some code, none => h.fault dst code
  | none, _ => h.stop .noResponse

/-- Running one line: LI issues no request (R97); a command line is one request (R94). -/
def HostState.runLine (h : HostState) : Line → HostState
  | .li name v => { h with bindings := bindName h.bindings name v }
  | .command i dst srcs =>
    match operandWords h.bindings srcs with
    | .error x => h.stop (.unboundName x)
    | .ok (a, b) =>
      match exchange h.block ⟨encode i, a, b⟩ with
      | .next s => h.receive dst s
      | .fault _ => h.stop .noResponse
      | .refused _ => h.stop .noResponse

/-- One step of the host: the next line, or the end of the program (R326). -/
def HostState.step (h : HostState) : HostState :=
  match h.standing, h.lines with
  | .running, [] => { h with standing := .normalEnd }
  | .running, line :: rest => { h with lines := rest }.runLine line
  | _, _ => h

/-- `n` steps of the host. -/
def HostState.steps : Nat → HostState → HostState
  | 0, h => h
  | n + 1, h => HostState.steps n h.step

end Sys2Proof.Machine
end

