-- ==== Sys2Proof/Safety.lean ====
section
/-! DEFINITION. The terms statements are made in: what a host sees of a run, when the output ports agree, and the
spec's own readings of patterns as exact rational numbers. -/

namespace Sys2Proof

namespace Machine

/-- What the host sees on STATUS and RES (10_state.md R40). -/
def State.output (s : State) : Option StatusWord × Option PortWord :=
  (s.status, s.res)

/-- The outputs after each of `n` steps, oldest first; the list ends where a step does not answer. -/
def outputs : Nat → State → List (Option StatusWord × Option PortWord)
  | 0, _ => []
  | n + 1, s =>
    match step s with
    | .next t => t.output :: outputs n t
    | .fault _ => []
    | .refused _ => []

/-- The block as a function of one request, `exec : (CMD, A, B) -> (RES, STATUS)` (R41): the response a block just
reset gives to the request when nothing else is presented. -/
def responseTo (r : Request) : List (Option StatusWord × Option PortWord) :=
  outputs 1 (State.reset.present r)

/-- The output ports agree: no status, no result; status 0 with a result; a status of 1, 2 or 3 without one
(R40, R57; 60_exceptions.md R311, R313). -/
def State.portsAgree (s : State) : Bool :=
  match s.status, s.res with
  | none, none => true
  | none, some _ => false
  | some code, some _ => code == 0
  | some code, none => code == 1 || code == 2 || code == 3

/-- The last response was no fault (60_exceptions.md R311, R326). -/
def State.safe (s : State) : Bool :=
  s.status == some statusOk

end Machine

namespace Spec

open Machine

/-- `value_T(b)`, the represented value (10_state.md R47). -/
def value (t : CType) (b : t.Pattern) : ℚ :=
  (intOf t b : ℚ) / 2 ^ t.fracBits

/-- The real value of a finite float pattern (00_scope.md R13, 20_memory.md R61). -/
def floatValue (fmt : FloatFmt) (p : fmt.Pattern) : ℚ :=
  let sign : ℚ := if floatSign fmt p then -1 else 1
  let frac : ℚ := (floatFrac fmt p : ℚ) / 2 ^ fmt.fracBits
  if floatExp fmt p = 0 then sign * frac * 2 ^ (1 - (fmt.bias : ℤ))
  else sign * (1 + frac) * 2 ^ ((floatExp fmt p : ℤ) - fmt.bias)

/-- A pattern that is no NaN and no infinity (R13). -/
def isFinite (fmt : FloatFmt) (p : fmt.Pattern) : Prop :=
  isNaN fmt p = false ∧ isInf fmt p = false

/-- `clamp(x, lo, hi)` (R13). -/
def clamp (x lo hi : ℚ) : ℚ :=
  if x < lo then lo else if hi < x then hi else x

/-- `round_half_away(x)` (R13). -/
def roundHalfAway (x : ℚ) : ℤ :=
  if 0 ≤ x then ⌊x + 1 / 2⌋ else -⌊-x + 1 / 2⌋

/-- ENC of a finite value on exact rational numbers, step for step (42_float_codec.md R162 to R166). -/
def encodeValue (t : CType) (v : ℚ) : t.Pattern :=
  let vc := clamp v (floatValue .f64 (minF t)) (floatValue .f64 (maxF t))
  let a := |vc|
  let ip := ⌊a⌋
  let fp := roundHalfAway ((a - ip) * 2 ^ 64)
  let r := if t.fracBits ≤ 63 then (fp + 2 ^ (63 - t.fracBits)) / 2 ^ (64 - t.fracBits)
    else fp * 2 ^ (t.fracBits - 64)
  let m := ip * 2 ^ t.fracBits + r
  if t.signed = true ∧ v < 0 then
    if 2 ^ (t.bits - 1) ≤ m then minPattern t else bitsOf t (2 ^ t.bits - m)
  else if (maxMag t : ℤ) < m then maxPattern t else bitsOf t m

end Spec

end Sys2Proof
end

