-- ==== Sys2Proof/Certificates/Slice0/Obligations.lean ====
section
/-! DEFINITION. The statements for the provers. Each one's docstring names the rule of spec/ it formalises; where a
clause rests on a choice of the model, it names the log entry. -/

open Sys2Proof Sys2Proof.Machine

/-! ## The command word (30_encoding.md) -/

/-- The decoder reads back every command the encoder writes (R80, R88, R96). -/
def Obligations.DecodeReadsEveryEncodedCommand : Prop :=
  ∀ i : Instr, i.wellFormed = true → decode (encode i) = .ok i

/-- A word that decodes is the word of the command it decodes to, so every legal word has exactly one meaning and no
bit of it is ignored (R89, R93). -/
def Obligations.DecodedWordIsTheCommandsWord : Prop :=
  ∀ (w : CmdWord) (i : Instr), decode w = .ok i → i.wellFormed = true ∧ encode i = w

/-- R89: a word decodes if and only if `legal` holds of it, and a request with an illegal word completes with
ILLEGAL_CMD, the same whatever its operand words are. -/
def Obligations.IllegalCommandsCompleteWithIllegalCmd : Prop :=
  (∀ w : CmdWord, (∃ i, decode w = .ok i) ↔ legal w = true) ∧
  (∀ (s : State) (r : Request) (rest : List Request), s.pending = r :: rest → legal r.cmd = false →
    step s = .next { cmd := r.cmd, a := r.a, b := r.b, res := none, status := some 1, pending := rest })

/-- The decoder accepts exactly 281 command words (95_test_vectors.md, first list). -/
def Obligations.ExactlyTwoHundredEightyOneWordsAreLegal : Prop :=
  ∃ l : List CmdWord, l.Nodup ∧ l.length = 281 ∧ ∀ w, w ∈ l ↔ legal w = true

/-- R91 and R92: a word whose OPC is in no row of the opcode map, the zero word among them, completes with
ILLEGAL_CMD; so does a word with a reserved width code in WA, or in WB for CONV, with SB different from SA in CONV, with
a nonzero field that R87 says must be zero, or with a nonzero RSV, whatever its OPC. -/
def Obligations.ReservedOpcodesAndFieldsAreIllegal : Prop :=
  ∀ (s : State) (r : Request) (rest : List Request), s.pending = r :: rest →
    (let w := r.cmd.toNat
     let opc := w % 256
     let wa := w / 2 ^ 8 % 8
     let sa := w / 2 ^ 11 % 2
     let wb := w / 2 ^ 12 % 8
     let sb := w / 2 ^ 15 % 2
     let fmt := w / 2 ^ 16 % 2
     opc = 0 ∨ (0x06 ≤ opc ∧ opc ≤ 0x0F) ∨ (0x17 ≤ opc ∧ opc ≤ 0x1F) ∨ (0x22 ≤ opc ∧ opc ≤ 0x2F) ∨
       (0x31 ≤ opc ∧ opc ≤ 0x3F) ∨ (0x46 ≤ opc ∧ opc ≤ 0x7F) ∨ 0x8B ≤ opc ∨
       5 ≤ wa ∨ (opc = 0x30 ∧ (5 ≤ wb ∨ sb ≠ sa)) ∨ (opc ≠ 0x30 ∧ (wb ≠ 0 ∨ sb ≠ 0)) ∨
       (opc ≠ 0x20 ∧ opc ≠ 0x21 ∧ fmt ≠ 0) ∨ (0x80 ≤ opc ∧ (wa ≠ 0 ∨ sa ≠ 0)) ∨ w / 2 ^ 17 ≠ 0) →
    step s = .next { cmd := r.cmd, a := r.a, b := r.b, res := none, status := some 1, pending := rest }

/-- R96: how the command word of a form is assembled, with the rule's examples, which decode to the forms they are
the words of. -/
def Obligations.CommandWordIsAssembledFromItsFields : Prop :=
  (∀ i : Instr, encode i = i.fields.opc.setWidth 32 ||| i.fields.wa.setWidth 32 <<< 8 |||
    (BitVec.ofBool i.fields.sa).setWidth 32 <<< 11 ||| i.fields.wb.setWidth 32 <<< 12 |||
    (BitVec.ofBool i.fields.sb).setWidth 32 <<< 15 ||| (BitVec.ofBool i.fields.fmt).setWidth 32 <<< 16) ∧
  decode 0x00000841 = .ok (.add ⟨.w8, true⟩) ∧ encode (.add ⟨.w8, true⟩) = 0x00000841 ∧
  decode 0x00000A20 = .ok (.enc ⟨.w32, true⟩ .f64) ∧ encode (.enc ⟨.w32, true⟩ .f64) = 0x00000A20 ∧
  decode 0x00010821 = .ok (.dec ⟨.w8, true⟩ .f32) ∧ encode (.dec ⟨.w8, true⟩ .f32) = 0x00010821 ∧
  decode 0x00008A30 = .ok (.conv ⟨.w32, true⟩ ⟨.w8, true⟩) ∧
  encode (.conv ⟨.w32, true⟩ ⟨.w8, true⟩) = 0x00008A30 ∧
  decode 0x00001030 = .ok (.conv ⟨.w8, false⟩ ⟨.w16, false⟩) ∧
  encode (.conv ⟨.w8, false⟩ ⟨.w16, false⟩) = 0x00001030 ∧
  decode 0x00000C43 = .ok (.mul ⟨.w128, true⟩) ∧ encode (.mul ⟨.w128, true⟩) = 0x00000C43 ∧
  decode 0x00000089 = .ok .wMul ∧ encode .wMul = 0x00000089

/-! ## Requests, responses and reset (10_state.md, 20_memory.md, 60_exceptions.md, 70_reset_and_hazards.md) -/

/-- A step samples the oldest request and runs the command its word decodes to (R41, R64). -/
def Obligations.StepRunsTheDecodedCommand : Prop :=
  ∀ (s : State) (r : Request) (rest : List Request) (i : Instr),
    s.pending = r :: rest → decode r.cmd = .ok i →
    step s = exec i { s with cmd := r.cmd, a := r.a, b := r.b, pending := rest }

/-- With no request waiting a step changes nothing but the output ports, which then hold no value: the model's
reading of "the block is idle and retains nothing" (R324; log entry 4). -/
def Obligations.IdleStepLeavesNoValue : Prop :=
  ∀ s : State, s.pending = [] → step s = .next { s with res := none, status := none }

/-- Responses come in the order in which the requests were presented, also where earlier ones still wait (R41, R345):
with a list of requests presented one after the other behind those that wait, the responses are those of the waiting
requests and then those of the list, each the one response a block just reset gives to that request alone. That as many
steps as there are requests deliver them all and leave none waiting is the model's reading, one response per step
(log entry 6). -/
def Obligations.ResponsesComeInRequestOrder : Prop :=
  (∀ r : Request, ∃ code res, responseTo r = [(some code, res)]) ∧
  ∀ (s : State) (l : List Request),
    let presented := l.foldl State.present s
    let n := s.pending.length + l.length
    outputs n presented = s.pending.flatMap responseTo ++ l.flatMap responseTo ∧
    ∃ t, steps n presented = .next t ∧ t.pending = []

/-- R65: a request presented twice gives one and the same response twice; it has no side effect, so that nothing but
the number of waiting requests tells the second response from the first. -/
def Obligations.RequestsAreIdempotent : Prop :=
  ∀ (s : State) (r : Request) (rest : List Request), s.pending = r :: r :: rest →
    ∃ code res,
      let first : State :=
        { cmd := r.cmd, a := r.a, b := r.b, res := res, status := some code, pending := r :: rest }
      step s = .next first ∧ step first = .next { first with pending := rest }

/-- A response depends on its own request alone: not on what the ports held before, nor on the requests behind it
(R41, R66, R315). -/
def Obligations.ResponseDependsOnItsRequestAlone : Prop :=
  ∀ (s s' : State) (r : Request) (rest rest' : List Request),
    s.pending = r :: rest → s'.pending = r :: rest' →
    ∃ t t', step s = .next t ∧ step s' = .next t' ∧ t.status = t'.status ∧ t.res = t'.res ∧
      t.status.isSome = true ∧ t.pending = rest ∧ t'.pending = rest'

/-- Every step answers, in every state: no command is privileged, none stops the block, and the block goes on after a
fault (R41, R313, R319). That each step delivers the response to one waiting request, so that one fewer waits, is the
model's choice (log entry 6; R346 leaves the delay of a response open), and so is the idle step (log entry 4). -/
def Obligations.EveryStepAnswers : Prop :=
  ∀ s : State, ∃ t, step s = .next t ∧ t.pending = s.pending.tail

/-- Every step that answers leaves the output ports in agreement, whatever they held before: status 0 with a result,
status 1, 2 or 3 without one, or no value on either (R40, R311, R313). -/
def Obligations.StepsKeepTheOutputPortsInAgreement : Prop :=
  ∀ s t : State, step s = .next t → t.portsAgree = true

/-- The output ports agree after reset (R57, R340). -/
def Obligations.OutputPortsAgreeAfterReset : Prop :=
  State.reset.portsAgree = true

/-- The frame of every command: the input ports and the waiting requests are as before, whatever the response
(R30 to R34, R65). -/
def Obligations.CommandsChangeOnlyTheOutputPorts : Prop :=
  ∀ (i : Instr) (s t : State), exec i s = .next t →
    t.cmd = s.cmd ∧ t.a = s.a ∧ t.b = s.b ∧ t.pending = s.pending

/-- After reset RES and STATUS hold no value (R57, R340) and no request waits (R341). That a read of either stops with a
fault of the reader is the model's form of "a reader must not assume zero" (log entry 3, from
93_implementation_defined.md items 9 and 10). -/
def Obligations.ResetLeavesNoValueOnTheOutputPorts : Prop :=
  State.reset.res = none ∧ State.reset.status = none ∧
  State.reset.readRes = .error .resHoldsNoValue ∧ State.reset.readStatus = .error .statusHoldsNoValue ∧
  State.reset.pending = []

/-- Requests in flight at a reset get no response, and a request presented again afterwards gets the response the lost
one would have carried (R341, with the model's reading of a reset during operation, log entry 8). -/
def Obligations.ResetLosesRequestsInFlight : Prop :=
  ∀ (s : State) (r : Request),
    s.resetBlock.pending = [] ∧ s.resetBlock.output = (none, none) ∧
    outputs 1 (s.resetBlock.present r) = responseTo r

/-! ## Layout accessors and constants (41_layout_constants.md) -/

/-- R120: FROMBITS gives the low N bits of A, zero-extended. -/
def Obligations.FromBitsGivesTheLowBits : Prop :=
  ∀ (t : CType) (s : State), ∃ v : PortWord,
    exec (.fromBits t) s = .next { s with res := some v, status := some 0 } ∧
    v.toNat = s.a.toNat % 2 ^ t.bits

/-- R121: SIGNBIT gives bit N-1 of a signed pattern, and 0 for an unsigned type. -/
def Obligations.SignBitGivesTheTopBit : Prop :=
  ∀ (t : CType) (s : State), ∃ v : PortWord,
    exec (.signBit t) s = .next { s with res := some v, status := some 0 } ∧
    v.toNat = if t.signed then s.a.toNat / 2 ^ (t.bits - 1) % 2 else 0

/-- R122: SIGN gives 0 for the zero pattern, all ones for a signed pattern with its top bit set, else 1; and that is
the sign of the represented value. -/
def Obligations.SignGivesTheSignOfTheValue : Prop :=
  ∀ (t : CType) (s : State), ∃ v : PortWord,
    exec (.sign t) s = .next { s with res := some v, status := some 0 } ∧
    v = (if s.a.toNat % 2 ^ t.bits = 0 then 0
      else if t.signed = true ∧ s.a.toNat / 2 ^ (t.bits - 1) % 2 = 1 then BitVec.allOnes 256 else 1) ∧
    v.toInt = (SignType.sign (Spec.value t (s.a.setWidth t.bits)) : ℤ)

/-- R123: INTC gives the raw integer field, I bits from bit F up, also of a negative pattern. -/
def Obligations.IntComponentIsTheIntegerField : Prop :=
  ∀ (t : CType) (s : State), ∃ v : PortWord,
    exec (.intC t) s = .next { s with res := some v, status := some 0 } ∧
    v.toNat = s.a.toNat / 2 ^ t.fracBits % 2 ^ t.intBits

/-- R124: FRACC gives the raw fraction field, left-justified to N bits, also of a negative pattern. -/
def Obligations.FractionComponentIsLeftJustified : Prop :=
  ∀ (t : CType) (s : State), ∃ v : PortWord,
    exec (.fracC t) s = .next { s with res := some v, status := some 0 } ∧
    v.toNat = s.a.toNat % 2 ^ t.fracBits * 2 ^ (t.bits - t.fracBits)

/-- LDMIN, LDMAX and LDGRAIN give MIN_T, MAX_T and GRAIN_T of R49 to R51, with the values of R52: MIN_T only the sign
bit or zero, the least value of the type; MAX_T every bit but the sign bit or all ones, the greatest; GRAIN_T the
pattern 1, the smallest positive value (R126 to R128). -/
def Obligations.LoadMinMaxGrainGiveTheBounds : Prop :=
  ∀ (t : CType) (s : State), ∃ lo hi grain : t.Pattern,
    exec (.ldMin t) s = .next { s with res := some (lo.setWidth 256), status := some 0 } ∧
    exec (.ldMax t) s = .next { s with res := some (hi.setWidth 256), status := some 0 } ∧
    exec (.ldGrain t) s = .next { s with res := some (grain.setWidth 256), status := some 0 } ∧
    lo.toNat = (if t.signed then 2 ^ (t.bits - 1) else 0) ∧
    hi.toNat = (if t.signed then 2 ^ (t.bits - 1) - 1 else 2 ^ t.bits - 1) ∧
    grain.toNat = 1 ∧
    Spec.value t lo = (if t.signed then -2 ^ t.intBits else 0) ∧
    Spec.value t hi = 2 ^ t.intBits - 1 / 2 ^ t.fracBits ∧
    Spec.value t grain = 1 / 2 ^ t.fracBits ∧
    (∀ b : t.Pattern, Spec.value t lo ≤ Spec.value t b ∧ Spec.value t b ≤ Spec.value t hi) ∧
    ∀ b : t.Pattern, 0 < Spec.value t b → Spec.value t grain ≤ Spec.value t b

/-- LDPI and LDE give the patterns of the table of R130. -/
def Obligations.LoadPiAndEGiveTheTable : Prop :=
  ∀ s : State,
    (∀ sg : Bool,
      exec (.ldPi ⟨.w16, sg⟩) s = .next { s with res := some 0x6488, status := some 0 } ∧
      exec (.ldPi ⟨.w32, sg⟩) s = .next { s with res := some 0x3243F6A9, status := some 0 } ∧
      exec (.ldPi ⟨.w64, sg⟩) s = .next { s with res := some 0x1921FB54442D1847, status := some 0 } ∧
      exec (.ldPi ⟨.w128, sg⟩) s =
        .next { s with res := some 0x0C90FDAA22168C234C4C6628B80DC1CD, status := some 0 } ∧
      exec (.ldE ⟨.w16, sg⟩) s = .next { s with res := some 0x56FC, status := some 0 } ∧
      exec (.ldE ⟨.w32, sg⟩) s = .next { s with res := some 0x2B7E1516, status := some 0 } ∧
      exec (.ldE ⟨.w64, sg⟩) s = .next { s with res := some 0x15BF0A8B14576953, status := some 0 } ∧
      exec (.ldE ⟨.w128, sg⟩) s =
        .next { s with res := some 0x0ADF85458A2BB4A9AAFDC5620273D3CF, status := some 0 }) ∧
    exec (.ldPi ⟨.w8, true⟩) s = .next { s with res := some 0x7F, status := some 0 } ∧
    exec (.ldPi ⟨.w8, false⟩) s = .next { s with res := some 0xC9, status := some 0 } ∧
    exec (.ldE ⟨.w8, true⟩) s = .next { s with res := some 0x7F, status := some 0 } ∧
    exec (.ldE ⟨.w8, false⟩) s = .next { s with res := some 0xAE, status := some 0 }

/-- R129, for the types of up to 64 bits: PI_T and E_T are the nearest patterns to the real numbers π and e, or MAX_T
where the constant is above its value. -/
def Obligations.PiAndEAreNearestUpToSixtyFourBits : Prop :=
  ∀ t : CType, t.width ≠ .w128 →
    ((t = ⟨.w8, true⟩ ∧ piPattern t = maxPattern t ∧ (Spec.value t (maxPattern t) : ℝ) < Real.pi) ∨
      (t ≠ ⟨.w8, true⟩ ∧ |(Spec.value t (piPattern t) : ℝ) - Real.pi| < 1 / 2 / 2 ^ t.fracBits)) ∧
    ((t = ⟨.w8, true⟩ ∧ ePattern t = maxPattern t ∧ (Spec.value t (maxPattern t) : ℝ) < Real.exp 1) ∨
      (t ≠ ⟨.w8, true⟩ ∧ |(Spec.value t (ePattern t) : ℝ) - Real.exp 1| < 1 / 2 / 2 ^ t.fracBits))

/-- R129, for the two 128-bit types. -/
def Obligations.PiAndEAreNearestAtOneTwentyEightBits : Prop :=
  ∀ t : CType, t.width = .w128 →
    |(Spec.value t (piPattern t) : ℝ) - Real.pi| < 1 / 2 / 2 ^ t.fracBits ∧
    |(Spec.value t (ePattern t) : ℝ) - Real.exp 1| < 1 / 2 / 2 ^ t.fracBits

/-- LDMINF and LDMAXF give the binary64 patterns of the table of R133. -/
def Obligations.LoadFloatBoundsGiveTheTable : Prop :=
  ∀ s : State,
    exec (.ldMinF ⟨.w8, true⟩) s = .next { s with res := some 0xC000000000000000, status := some 0 } ∧
    exec (.ldMinF ⟨.w16, true⟩) s = .next { s with res := some 0xC010000000000000, status := some 0 } ∧
    exec (.ldMinF ⟨.w32, true⟩) s = .next { s with res := some 0xC020000000000000, status := some 0 } ∧
    exec (.ldMinF ⟨.w64, true⟩) s = .next { s with res := some 0xC030000000000000, status := some 0 } ∧
    exec (.ldMinF ⟨.w128, true⟩) s = .next { s with res := some 0xC040000000000000, status := some 0 } ∧
    (∀ w : Width, exec (.ldMinF ⟨w, false⟩) s = .next { s with res := some 0, status := some 0 }) ∧
    exec (.ldMaxF ⟨.w8, true⟩) s = .next { s with res := some 0x3FFFC00000000000, status := some 0 } ∧
    exec (.ldMaxF ⟨.w16, true⟩) s = .next { s with res := some 0x400FFFC000000000, status := some 0 } ∧
    exec (.ldMaxF ⟨.w32, true⟩) s = .next { s with res := some 0x401FFFFFFFC00000, status := some 0 } ∧
    exec (.ldMaxF ⟨.w64, true⟩) s = .next { s with res := some 0x4030000000000000, status := some 0 } ∧
    exec (.ldMaxF ⟨.w128, true⟩) s = .next { s with res := some 0x4040000000000000, status := some 0 } ∧
    exec (.ldMaxF ⟨.w8, false⟩) s = .next { s with res := some 0x400FE00000000000, status := some 0 } ∧
    exec (.ldMaxF ⟨.w16, false⟩) s = .next { s with res := some 0x401FFFE000000000, status := some 0 } ∧
    exec (.ldMaxF ⟨.w32, false⟩) s = .next { s with res := some 0x402FFFFFFFE00000, status := some 0 } ∧
    exec (.ldMaxF ⟨.w64, false⟩) s = .next { s with res := some 0x4040000000000000, status := some 0 } ∧
    exec (.ldMaxF ⟨.w128, false⟩) s = .next { s with res := some 0x4050000000000000, status := some 0 }

/-! ## The float codec (42_float_codec.md) -/

/-- ENC of any NaN, quiet or signalling, of either format and either sign, faults with NAN_INPUT and gives no result
(R162, R166, R311, R313). -/
def Obligations.EncodeOfNaNFaults : Prop :=
  ∀ (t : CType) (s : State),
    (s.a.toNat / 2 ^ 52 % 2 ^ 11 = 2 ^ 11 - 1 → s.a.toNat % 2 ^ 52 ≠ 0 →
      exec (.enc t .f64) s = .next { s with res := none, status := some 2 }) ∧
    (s.a.toNat / 2 ^ 23 % 2 ^ 8 = 2 ^ 8 - 1 → s.a.toNat % 2 ^ 23 ≠ 0 →
      exec (.enc t .f32) s = .next { s with res := none, status := some 2 })

/-- R171: ENC of +∞ gives MAX_T for every type, ENC of -∞ gives MIN_T, which is 0 for an unsigned type; in both
formats. -/
def Obligations.EncodeOfInfinityGivesTheBounds : Prop :=
  ∀ (t : CType) (s : State),
    (s.a.setWidth 64 = (0x7FF0000000000000 : BitVec 64) →
      exec (.enc t .f64) s = .next { s with res := some ((maxPattern t).setWidth 256), status := some 0 }) ∧
    (s.a.setWidth 64 = (0xFFF0000000000000 : BitVec 64) →
      exec (.enc t .f64) s = .next { s with res := some ((minPattern t).setWidth 256), status := some 0 }) ∧
    (s.a.setWidth 32 = (0x7F800000 : BitVec 32) →
      exec (.enc t .f32) s = .next { s with res := some ((maxPattern t).setWidth 256), status := some 0 }) ∧
    (s.a.setWidth 32 = (0xFF800000 : BitVec 32) →
      exec (.enc t .f32) s = .next { s with res := some ((minPattern t).setWidth 256), status := some 0 })

/-- R166: ENC on exact rational numbers. A NaN faults, an infinity gives a bound, and a finite operand is clamped,
split, rounded twice half away from zero, combined, saturated and signed as the rule's pseudocode says. -/
def Obligations.EncodeFollowsTheRationalRule : Prop :=
  ∀ (t : CType) (fmt : FloatFmt) (s : State),
    let p : fmt.Pattern := s.a.setWidth fmt.bits
    (isNaN fmt p = true → exec (.enc t fmt) s = .next { s with res := none, status := some 2 }) ∧
    (isInf fmt p = true → exec (.enc t fmt) s = .next { s with
      res := some ((if floatSign fmt p then minPattern t else maxPattern t).setWidth 256), status := some 0 }) ∧
    (Spec.isFinite fmt p → exec (.enc t fmt) s = .next { s with
      res := some ((Spec.encodeValue t (Spec.floatValue fmt p)).setWidth 256), status := some 0 })

/-- The error of ENC's two roundings: the result is off the operand, clamped to the type's values, by at most half of
2^-64 plus half a grain, and for the 128-bit types, which only the first rounding concerns, by at most half of 2^-64
(R162 to R165). Half a grain alone is no bound: see R172 for a result of s64 that is off by more. -/
def Obligations.EncodeErrorIsBoundedByItsTwoRoundings : Prop :=
  ∀ (t : CType) (fmt : FloatFmt) (s : State),
    Spec.isFinite fmt (s.a.setWidth fmt.bits) →
    ∃ p : t.Pattern,
      exec (.enc t fmt) s = .next { s with res := some (p.setWidth 256), status := some 0 } ∧
      |Spec.value t p - Spec.clamp (Spec.floatValue fmt (s.a.setWidth fmt.bits))
          (Spec.value t (minPattern t)) (Spec.value t (maxPattern t))| ≤
        1 / 2 ^ 65 + (if t.width = .w128 then 0 else 1 / 2 / 2 ^ t.fracBits)

/-- For an unsigned type a finite operand below zero clamps to +0.0, and a subnormal or zero operand of either sign
gives 0 for every type (R162, R166 corner cases). -/
def Obligations.EncodeOfNegativeOrSubnormalGivesZero : Prop :=
  ∀ (t : CType) (fmt : FloatFmt) (s : State),
    (floatExp fmt (s.a.setWidth fmt.bits) = 0 ∨
      (t.signed = false ∧ Spec.isFinite fmt (s.a.setWidth fmt.bits) ∧
        Spec.floatValue fmt (s.a.setWidth fmt.bits) < 0)) →
    exec (.enc t fmt) s = .next { s with res := some 0, status := some 0 }

/-- Every finite binary32 value is a binary64 value, and ENC of the one is ENC of the other (R160). -/
def Obligations.EncodeWidensBinary32Exactly : Prop :=
  ∀ (t : CType) (s : State), Spec.isFinite .f32 (s.a.setWidth 32) →
    ∃ (q : BitVec 64) (v : PortWord),
      Spec.isFinite .f64 q ∧ Spec.floatValue .f64 q = Spec.floatValue .f32 (s.a.setWidth 32) ∧
      exec (.enc t .f32) s = .next { s with res := some v, status := some 0 } ∧
      ∀ u : State, u.a.setWidth 64 = q → exec (.enc t .f64) u = .next { u with res := some v, status := some 0 }

/-- R172: the double rounding of ENC is kept; 31 · 2^-65 encodes to GRAIN in s64 although it is below half a grain. -/
def Obligations.EncodeRoundsTwice : Prop :=
  Spec.floatValue .f64 (0x3C2F000000000000 : BitVec 64) = 31 / 2 ^ 65 ∧
  (31 / 2 ^ 65 : ℚ) < Spec.value ⟨.w64, true⟩ (grainPattern ⟨.w64, true⟩) / 2 ∧
  ∀ s : State, s.a.setWidth 64 = (0x3C2F000000000000 : BitVec 64) →
    exec (.enc ⟨.w64, true⟩ .f64) s = .next { s with res := some 1, status := some 0 }

/-- DEC of a type of up to 64 bits gives the nearest pattern of the format to the represented value, a tie going to
the even fraction, and +0.0 for zero (R13, R167, R168). -/
def Obligations.DecodeRoundsToNearestEven : Prop :=
  ∀ (t : CType) (fmt : FloatFmt) (s : State), t.width ≠ .w128 →
    ∃ p : fmt.Pattern,
      exec (.dec t fmt) s = .next { s with res := some (p.setWidth 256), status := some 0 } ∧
      Spec.isFinite fmt p ∧
      (Spec.value t (s.a.setWidth t.bits) = 0 → p = 0) ∧
      (∀ q : fmt.Pattern, Spec.isFinite fmt q →
        |Spec.floatValue fmt p - Spec.value t (s.a.setWidth t.bits)| ≤
          |Spec.floatValue fmt q - Spec.value t (s.a.setWidth t.bits)|) ∧
      (∀ q : fmt.Pattern, Spec.isFinite fmt q → Spec.floatValue fmt q ≠ Spec.floatValue fmt p →
        |Spec.floatValue fmt q - Spec.value t (s.a.setWidth t.bits)| =
          |Spec.floatValue fmt p - Spec.value t (s.a.setWidth t.bits)| →
        floatFrac fmt p % 2 = 0)

/-- DEC is exact for binary64 when N is at most 32 and for binary32 when N is at most 16 (R168). -/
def Obligations.DecodeIsExactForNarrowTypes : Prop :=
  ∀ (t : CType) (fmt : FloatFmt) (s : State), (fmt = .f64 ∧ t.bits ≤ 32) ∨ t.bits ≤ 16 →
    ∃ p : fmt.Pattern,
      exec (.dec t fmt) s = .next { s with res := some (p.setWidth 256), status := some 0 } ∧
      Spec.isFinite fmt p ∧ Spec.floatValue fmt p = Spec.value t (s.a.setWidth t.bits)

/-- R169: DEC of a 128-bit type is DEC of the 64-bit type of its signedness on what CONV narrows the operand to; so
an s128 value of 16 or more gives 16.0, one of -16 or less gives -16.0, and a u128 value of 32 or more gives 32.0. -/
def Obligations.DecodeOfWideTypesNarrowsFirst : Prop :=
  ∀ (fmt : FloatFmt) (s : State),
    (∀ sg : Bool, ∃ (n : BitVec 64) (p : fmt.Pattern),
      exec (.conv ⟨.w128, sg⟩ ⟨.w64, sg⟩) s = .next { s with res := some (n.setWidth 256), status := some 0 } ∧
      exec (.dec ⟨.w128, sg⟩ fmt) s = .next { s with res := some (p.setWidth 256), status := some 0 } ∧
      ∀ u : State, u.a.setWidth 64 = n →
        exec (.dec ⟨.w64, sg⟩ fmt) u = .next { u with res := some (p.setWidth 256), status := some 0 }) ∧
    (16 ≤ Spec.value ⟨.w128, true⟩ (s.a.setWidth 128) → ∃ p : fmt.Pattern, Spec.floatValue fmt p = 16 ∧
      exec (.dec ⟨.w128, true⟩ fmt) s = .next { s with res := some (p.setWidth 256), status := some 0 }) ∧
    (Spec.value ⟨.w128, true⟩ (s.a.setWidth 128) ≤ -16 → ∃ p : fmt.Pattern, Spec.floatValue fmt p = -16 ∧
      exec (.dec ⟨.w128, true⟩ fmt) s = .next { s with res := some (p.setWidth 256), status := some 0 }) ∧
    (32 ≤ Spec.value ⟨.w128, false⟩ (s.a.setWidth 128) → ∃ p : fmt.Pattern, Spec.floatValue fmt p = 32 ∧
      exec (.dec ⟨.w128, false⟩ fmt) s = .next { s with res := some (p.setWidth 256), status := some 0 })

/-- R170: ENC of what DEC gives is the pattern again, for every pattern of the types of 8, 16 and 32 bits; for each
type of 64 or 128 bits it fails for some pattern, and for s64 at the rule's counterexample, which decodes to 1.0. -/
def Obligations.RoundTripHoldsForNarrowTypesOnly : Prop :=
  (∀ (t : CType) (s : State), t.bits ≤ 32 → ∃ p : BitVec 64,
    exec (.dec t .f64) s = .next { s with res := some (p.setWidth 256), status := some 0 } ∧
    ∀ u : State, u.a.setWidth 64 = p → exec (.enc t .f64) u = .next { u with
      res := some ((s.a.setWidth t.bits).setWidth 256), status := some 0 }) ∧
  (∀ t : CType, 64 ≤ t.bits → ∃ b : t.Pattern, ∀ s : State, s.a.setWidth t.bits = b → ∃ p : BitVec 64,
    exec (.dec t .f64) s = .next { s with res := some (p.setWidth 256), status := some 0 } ∧
    ∀ u : State, u.a.setWidth 64 = p → ∃ c : t.Pattern, c ≠ b ∧
      exec (.enc t .f64) u = .next { u with res := some (c.setWidth 256), status := some 0 }) ∧
  (∀ s : State, s.a.setWidth 64 = (0x0800000000000001 : BitVec 64) →
    exec (.dec ⟨.w64, true⟩ .f64) s = .next { s with res := some 0x3FF0000000000000, status := some 0 }) ∧
  (∀ u : State, u.a.setWidth 64 = (0x3FF0000000000000 : BitVec 64) →
    exec (.enc ⟨.w64, true⟩ .f64) u = .next { u with res := some 0x0800000000000000, status := some 0 })

/-! ## The cross-precision converter (43_cross_precision.md) -/

/-- R210: for every pair of types of one signedness, CONV maps MIN to MIN and MAX to MAX (R201). -/
def Obligations.ConvertMapsBoundsToBounds : Prop :=
  ∀ (ta tb : CType) (s : State), ta.signed = tb.signed →
    (s.a.setWidth ta.bits = minPattern ta →
      exec (.conv ta tb) s = .next { s with res := some ((minPattern tb).setWidth 256), status := some 0 }) ∧
    (s.a.setWidth ta.bits = maxPattern ta →
      exec (.conv ta tb) s = .next { s with res := some ((maxPattern tb).setWidth 256), status := some 0 })

/-- R209: a widening of any pattern but MIN and MAX is exact; a narrowing of any other pattern truncates the value
toward zero to a multiple of 2^-F_B and clamps it to the range of the target; and a widening followed by the matching
narrowing returns the pattern. -/
def Obligations.ConvertPreservesValues : Prop :=
  ∀ (ta tb : CType) (s : State), ta.signed = tb.signed →
    let a : ta.Pattern := s.a.setWidth ta.bits
    ∃ r : tb.Pattern,
      exec (.conv ta tb) s = .next { s with res := some (r.setWidth 256), status := some 0 } ∧
      (ta.bits < tb.bits → a ≠ minPattern ta → a ≠ maxPattern ta → Spec.value tb r = Spec.value ta a) ∧
      (tb.bits < ta.bits → a ≠ minPattern ta → a ≠ maxPattern ta →
        let x := Spec.value ta a * 2 ^ tb.fracBits
        let truncated : ℚ := (if 0 ≤ x then ⌊x⌋ else ⌈x⌉ : ℤ) / 2 ^ tb.fracBits
        Spec.value tb r = Spec.clamp truncated (Spec.value tb (minPattern tb)) (Spec.value tb (maxPattern tb))) ∧
      (ta.bits < tb.bits → ∀ u : State, u.a.setWidth tb.bits = r →
        exec (.conv tb ta) u = .next { u with res := some (a.setWidth 256), status := some 0 })

/-- R207: CONV from a type to itself returns its operand. -/
def Obligations.ConvertToSameTypeIsIdentity : Prop :=
  ∀ (t : CType) (s : State),
    exec (.conv t t) s = .next { s with res := some ((s.a.setWidth t.bits).setWidth 256), status := some 0 }

/-! ## Saturating arithmetic, equality and ordering (44_saturating_arith.md) -/

/-- R48: two patterns of one type have one value exactly when they are one pattern, and only the zero pattern has the
value 0. -/
def Obligations.PatternsHaveDistinctValues : Prop :=
  ∀ (t : CType) (a b : t.Pattern),
    (Spec.value t a = Spec.value t b ↔ a = b) ∧ (Spec.value t a = 0 ↔ a = 0)

/-- R231: NEG gives the value of opposite sign, clamped to the type's values; so -MIN is MAX for a signed type, and
every result is 0 for an unsigned type. -/
def Obligations.NegateSaturates : Prop :=
  ∀ (t : CType) (s : State), ∃ r : t.Pattern,
    exec (.neg t) s = .next { s with res := some (r.setWidth 256), status := some 0 } ∧
    Spec.value t r = Spec.clamp (-Spec.value t (s.a.setWidth t.bits))
      (Spec.value t (minPattern t)) (Spec.value t (maxPattern t)) ∧
    (t.signed = true → s.a.setWidth t.bits = minPattern t → r = maxPattern t) ∧
    (t.signed = true → s.a.setWidth t.bits ≠ minPattern t → r = -(s.a.setWidth t.bits)) ∧
    (t.signed = false → r = 0)

/-- R232: ADD gives the sum of the values, clamped to the type's values. -/
def Obligations.AddSaturates : Prop :=
  ∀ (t : CType) (s : State), ∃ r : t.Pattern,
    exec (.add t) s = .next { s with res := some (r.setWidth 256), status := some 0 } ∧
    Spec.value t r = Spec.clamp (Spec.value t (s.a.setWidth t.bits) + Spec.value t (s.b.setWidth t.bits))
      (Spec.value t (minPattern t)) (Spec.value t (maxPattern t))

/-- R233: SUB gives the difference of the values, clamped to the type's values. -/
def Obligations.SubtractSaturates : Prop :=
  ∀ (t : CType) (s : State), ∃ r : t.Pattern,
    exec (.sub t) s = .next { s with res := some (r.setWidth 256), status := some 0 } ∧
    Spec.value t r = Spec.clamp (Spec.value t (s.a.setWidth t.bits) - Spec.value t (s.b.setWidth t.bits))
      (Spec.value t (minPattern t)) (Spec.value t (maxPattern t))

/-- R236: MUL for all ten types, the 128-bit ones through the wide-integer datapath of R239. The product of the
magnitudes, that of MIN taken as MAXmag for a signed type, is divided by 2^F rounding down, given the sign of the
product of the operands' signs, and clamped: a negative one to MIN, a positive one to MAX. -/
def Obligations.MultiplyRescalesAndSaturates : Prop :=
  ∀ (t : CType) (s : State),
    let a := intOf t (s.a.setWidth t.bits)
    let b := intOf t (s.b.setWidth t.bits)
    let ma := if t.signed = true ∧ a = -2 ^ (t.bits - 1) then 2 ^ (t.bits - 1) - 1 else |a|
    let mb := if t.signed = true ∧ b = -2 ^ (t.bits - 1) then 2 ^ (t.bits - 1) - 1 else |b|
    let q := ma * mb / 2 ^ t.fracBits
    ∃ r : t.Pattern,
      exec (.mul t) s = .next { s with res := some (r.setWidth 256), status := some 0 } ∧
      intOf t r = if (a < 0 ∧ 0 ≤ b) ∨ (0 ≤ a ∧ b < 0) then -min q (2 ^ (t.bits - 1))
        else min q (if t.signed then 2 ^ (t.bits - 1) - 1 else 2 ^ t.bits - 1)

/-- R237: EQ gives 1 when the operands have one value and 0 otherwise. -/
def Obligations.EqualComparesValues : Prop :=
  ∀ (t : CType) (s : State),
    exec (.equal t) s = .next { s with
      res := some (if Spec.value t (s.a.setWidth t.bits) = Spec.value t (s.b.setWidth t.bits) then 1 else 0),
      status := some 0 }

/-- R238: CMP gives all ones, 0 or 1 as the first value is below, equal to or above the second. -/
def Obligations.CompareOrdersValues : Prop :=
  ∀ (t : CType) (s : State),
    exec (.compare t) s = .next { s with
      res := some (if Spec.value t (s.a.setWidth t.bits) < Spec.value t (s.b.setWidth t.bits) then BitVec.allOnes 256
        else if Spec.value t (s.a.setWidth t.bits) = Spec.value t (s.b.setWidth t.bits) then 0 else 1),
      status := some 0 }

/-- ADD and MUL are commutative (R232, R236, R240). -/
def Obligations.AddAndMultiplyCommute : Prop :=
  ∀ (t : CType) (s u : State), u.a = s.b → u.b = s.a →
    ∃ x y : PortWord,
      exec (.add t) s = .next { s with res := some x, status := some 0 } ∧
      exec (.add t) u = .next { u with res := some x, status := some 0 } ∧
      exec (.mul t) s = .next { s with res := some y, status := some 0 } ∧
      exec (.mul t) u = .next { u with res := some y, status := some 0 }

/-- For a signed type NEG undoes itself except at MIN, where NEG of NEG is MIN + GRAIN; and SUB(a, b) is
ADD(a, NEG(b)) except when b is MIN (R240). -/
def Obligations.NegateUndoesItselfExceptAtMin : Prop :=
  ∀ t : CType, t.signed = true →
    (∀ a : t.Pattern, negate t (negate t a) = if a = minPattern t then minPattern t + 1 else a) ∧
    (∀ a b : t.Pattern, b ≠ minPattern t →
      saturate t (intOf t a - intOf t b) = saturate t (intOf t a + intOf t (negate t b)))

/-- MUL truncates toward zero, so for a signed type MUL(a, b) and NEG(MUL(NEG(a), b)) agree when a is not MIN and the
magnitude of the product is at most MAXmag; when it is more and MUL(a, b) is negative, the one is MIN and the other
MIN + GRAIN (R240). -/
def Obligations.MultiplyOfNegatedOperand : Prop :=
  ∀ (t : CType) (a b : t.Pattern), t.signed = true → a ≠ minPattern t →
    let q := mulMagnitude t a * mulMagnitude t b / 2 ^ t.fracBits
    (q ≤ maxMag t → multiply t a b = negate t (multiply t (negate t a) b)) ∧
    (maxMag t < q → (intOf t a < 0 ↔ 0 < intOf t b) →
      multiply t a b = minPattern t ∧ negate t (multiply t (negate t a) b) = minPattern t + 1)

/-! ## The wide integer (45_wide_integer.md) -/

/-- R270: WFROM gives the low 128 bits of A, with a zero high word. -/
def Obligations.WideFromGivesTheLowWord : Prop :=
  ∀ s : State, ∃ v : PortWord,
    exec .wFrom s = .next { s with res := some v, status := some 0 } ∧ v.toNat = s.a.toNat % 2 ^ 128

/-- R271: WADD, through the word-pair datapath of R273, gives the sum, or all ones where it reaches 2^256. -/
def Obligations.WideAddSaturates : Prop :=
  ∀ s : State, ∃ v : PortWord,
    exec .wAdd s = .next { s with res := some v, status := some 0 } ∧
    v.toNat = if 2 ^ 256 ≤ s.a.toNat + s.b.toNat then 2 ^ 256 - 1 else s.a.toNat + s.b.toNat

/-- R272: WSUB, through the word-pair datapath of R273, gives the difference, or 0 where the subtrahend exceeds the
minuend. -/
def Obligations.WideSubtractSaturates : Prop :=
  ∀ s : State, ∃ v : PortWord,
    exec .wSub s = .next { s with res := some v, status := some 0 } ∧
    (v.toNat : ℤ) = if s.b.toNat ≤ s.a.toNat then (s.a.toNat : ℤ) - s.b.toNat else 0

/-- R274: WSHL by k below 256 gives (x · 2^k) mod 2^256; a shift by 256 or more faults with SHIFT_RANGE. -/
def Obligations.WideShiftLeftDiscardsOrFaults : Prop :=
  ∀ s : State,
    (s.b.toNat < 256 → ∃ v : PortWord,
      exec .wShl s = .next { s with res := some v, status := some 0 } ∧
      v.toNat = s.a.toNat * 2 ^ s.b.toNat % 2 ^ 256) ∧
    (256 ≤ s.b.toNat → exec .wShl s = .next { s with res := none, status := some 3 })

/-- R275: WSHR by k below 256 gives x / 2^k rounded down; a shift by 256 or more faults with SHIFT_RANGE. -/
def Obligations.WideShiftRightDividesOrFaults : Prop :=
  ∀ s : State,
    (s.b.toNat < 256 → ∃ v : PortWord,
      exec .wShr s = .next { s with res := some v, status := some 0 } ∧
      v.toNat = s.a.toNat / 2 ^ s.b.toNat) ∧
    (256 ≤ s.b.toNat → exec .wShr s = .next { s with res := none, status := some 3 })

/-- WSHR undoes WSHL where no bit is shifted out (R283). -/
def Obligations.WideShiftRightUndoesShiftLeft : Prop :=
  ∀ s : State, s.b.toNat < 256 → s.a.toNat < 2 ^ (256 - s.b.toNat) →
    ∃ v : PortWord, exec .wShl s = .next { s with res := some v, status := some 0 } ∧
      ∀ u : State, u.a = v → u.b = s.b → exec .wShr u = .next { u with res := some s.a, status := some 0 }

/-- WAND, WOR, WXOR and WNOT work bit by bit (R276 to R279). -/
def Obligations.WideBitwiseCommandsWorkBitByBit : Prop :=
  ∀ s : State, ∃ x y z w : PortWord,
    exec .wAnd s = .next { s with res := some x, status := some 0 } ∧
    exec .wOr s = .next { s with res := some y, status := some 0 } ∧
    exec .wXor s = .next { s with res := some z, status := some 0 } ∧
    exec .wNot s = .next { s with res := some w, status := some 0 } ∧
    ∀ i < 256, x.getLsbD i = (s.a.getLsbD i && s.b.getLsbD i) ∧ y.getLsbD i = (s.a.getLsbD i || s.b.getLsbD i) ∧
      z.getLsbD i = (s.a.getLsbD i ^^ s.b.getLsbD i) ∧ w.getLsbD i = !s.a.getLsbD i

/-- R281: WMUL, a schoolbook multiply on 64-bit halves (R280), gives the exact product of the low 128 bits of A
and B. -/
def Obligations.WideMultiplyIsExact : Prop :=
  ∀ s : State, ∃ v : PortWord,
    exec .wMul s = .next { s with res := some v, status := some 0 } ∧
    v.toNat = s.a.toNat % 2 ^ 128 * (s.b.toNat % 2 ^ 128)

/-- R282: WCMP gives all ones, 0 or 1 as A is below, equal to or above B, unsigned. -/
def Obligations.WideCompareIsUnsigned : Prop :=
  ∀ s : State, exec .wCmp s = .next { s with
    res := some (if s.a.toNat < s.b.toNat then BitVec.allOnes 256 else if s.a = s.b then 0 else 1),
    status := some 0 }
end

