-- ==== Sys2Proof/Laws/Decode.lean ====
section
/-! SUPPORT. The command word against its fields (30_encoding.md R80, R96). -/

namespace Sys2Proof

/-- Packing the fields of a word gives the word back: no bit of a command word is outside the fields. -/
theorem packFields_fieldsOf (w : CmdWord) : packFields (fieldsOf w) = w := by
  apply BitVec.eq_of_getLsbD_eq
  intro i hi
  simp only [packFields, fieldsOf, BitVec.getLsbD_append, BitVec.getLsbD_extractLsb', BitVec.getLsbD_ofBool]
  interval_cases i <;> simp

/-- The fields of a packed word are the fields packed. -/
theorem fieldsOf_packFields (f : Fields) : fieldsOf (packFields f) = f := by
  obtain ⟨opc, wa, sa, wb, sb, fmt, rsv⟩ := f
  simp only [fieldsOf, packFields, Fields.mk.injEq]
  refine ⟨?_, ?_, ?_, ?_, ?_, ?_, ?_⟩
  case refine_3 => simp only [BitVec.getLsbD_append, BitVec.getLsbD_ofBool]; simp
  case refine_5 => simp only [BitVec.getLsbD_append, BitVec.getLsbD_ofBool]; simp
  case refine_6 => simp only [BitVec.getLsbD_append, BitVec.getLsbD_ofBool]; simp
  all_goals
    apply BitVec.eq_of_getLsbD_eq
    intro i hi
    simp only [BitVec.getLsbD_append, BitVec.getLsbD_extractLsb', BitVec.getLsbD_ofBool]
    interval_cases i <;> simp

/-- The width code of a width stands for it. -/
@[simp] theorem widthOfCode_code (w : Width) : widthOfCode w.code = .ok w := by
  cases w <;> rfl

/-- Only the width codes 0 to 4 stand for a width, and each for the one it is the code of (R82). -/
theorem widthOfCode_eq_ok {c : BitVec 3} {w : Width} (h : widthOfCode c = .ok w) : w.code = c := by
  revert h
  revert c
  cases w <;> decide

@[simp] theorem floatFmtOf_bit (fmt : FloatFmt) : floatFmtOf fmt.bit = fmt := by
  cases fmt <;> rfl

@[simp] theorem bit_floatFmtOf (b : Bool) : (floatFmtOf b).bit = b := by
  cases b <;> rfl

@[simp] theorem certumType_code (t : CType) : certumType t.width.code t.signed = .ok t := by
  simp [certumType]

end Sys2Proof
end

