-- ==== Sys2Proof/Laws/Float.lean ====
section
/-! SUPPORT. Float units against exact rational values, and what each rounding does (00_scope.md R13, R163). -/

namespace Sys2Proof.Machine

/-- How a float unit, the subnormal weight, the fraction width and the bias of a format belong together. -/
theorem floatUnit_eq (fmt : FloatFmt) : floatUnit = subnormalUnits fmt * 2 ^ fmt.fracBits * 2 ^ (fmt.bias - 1) := by
  cases fmt <;> decide +kernel

/-- The magnitude of a real value in float units, for each of the two kinds of finite pattern. -/
theorem floatMag_eq (fmt : FloatFmt) (p : fmt.Pattern) :
    (floatMag fmt p : ℚ) = floatUnit * (if floatExp fmt p = 0
      then (floatFrac fmt p : ℚ) / 2 ^ fmt.fracBits * 2 ^ (1 - (fmt.bias : ℤ))
      else (1 + (floatFrac fmt p : ℚ) / 2 ^ fmt.fracBits) * 2 ^ ((floatExp fmt p : ℤ) - fmt.bias)) := by
  obtain ⟨k, hk⟩ : ∃ k, fmt.bias = k + 1 := by
    cases fmt
    · exact ⟨1022, rfl⟩
    · exact ⟨126, rfl⟩
  have hu : (floatUnit : ℚ) = subnormalUnits fmt * 2 ^ fmt.fracBits * 2 ^ k := by
    have h := floatUnit_eq fmt
    rw [hk, Nat.add_sub_cancel] at h
    exact_mod_cast h
  rw [hu, hk]
  unfold floatMag
  generalize subnormalUnits fmt = u
  split
  · have h2 : (2 : ℚ) ^ (1 - ((k + 1 : ℕ) : ℤ)) = 1 / 2 ^ k := by
      rw [show (1 - ((k + 1 : ℕ) : ℤ)) = -(k : ℤ) by push_cast; ring, zpow_neg, zpow_natCast, one_div]
    rw [h2]
    push_cast
    field_simp
  · obtain ⟨e, he⟩ : ∃ e, floatExp fmt p = e + 1 := ⟨floatExp fmt p - 1, by omega⟩
    have h2 : (2 : ℚ) ^ (((e + 1 : ℕ) : ℤ) - ((k + 1 : ℕ) : ℤ)) = 2 ^ e / 2 ^ k := by
      rw [show (((e + 1 : ℕ) : ℤ) - ((k + 1 : ℕ) : ℤ)) = (e : ℤ) - (k : ℤ) by push_cast; ring,
        zpow_sub₀ two_ne_zero, zpow_natCast, zpow_natCast]
    rw [he, h2, Nat.add_sub_cancel]
    push_cast
    field_simp

/-- `f64val` and `f32val` in float units are the real value times the number of units in 1.0: the units lose nothing
(R13). -/
theorem floatVal_eq (fmt : FloatFmt) (p : fmt.Pattern) :
    (floatVal fmt p : ℚ) = floatUnit * Spec.floatValue fmt p := by
  have h := floatMag_eq fmt p
  unfold floatVal Spec.floatValue
  generalize floatUnit = u at *
  cases floatSign fmt p <;> split at h <;> simp_all <;> ring

/-- Rounding half away from zero on naturals is the rule's rounding of the quotient (R13). -/
theorem roundHalfAway_eq (n : ℕ) {d : ℕ} (hd : 0 < d) : (roundHalfAway n d : ℤ) = Spec.roundHalfAway ((n : ℚ) / d) := by
  have hdq : (0 : ℚ) < d := by exact_mod_cast hd
  unfold Spec.roundHalfAway roundHalfAway
  rw [if_pos (by positivity)]
  symm
  have : ((n : ℚ) / d + 1 / 2) = ((2 * n + d : ℕ) : ℚ) / ((2 * d : ℕ) : ℚ) := by
    push_cast
    field_simp
  rw [this, Rat.floor_natCast_div_natCast]
  push_cast
  rfl

/-- What rounding a significand does when bits are dropped: the result is within half of the dropped weight of the
number, is even at a tie, and has `keep + 1` bits or is the next power of two (R13). -/
theorem roundSignificand_spec {keep n : ℕ} (h : keep < n.log2) :
    let drop := n.log2 - keep
    let q := roundSignificand keep n
    2 * q * 2 ^ drop ≤ 2 * n + 2 ^ drop ∧ 2 * n ≤ 2 * q * 2 ^ drop + 2 ^ drop ∧
    (2 * q * 2 ^ drop = 2 * n + 2 ^ drop ∨ 2 * n = 2 * q * 2 ^ drop + 2 ^ drop → q % 2 = 0) ∧
    2 ^ keep ≤ q ∧ q ≤ 2 ^ (keep + 1) := by
  have hn : n ≠ 0 := by
    rintro rfl
    simp at h
  have hlo : 2 ^ n.log2 ≤ n := Nat.log2_self_le hn
  have hhi : n < 2 ^ (n.log2 + 1) := Nat.lt_log2_self
  have hd : 0 < 2 ^ (n.log2 - keep) := by positivity
  have hp1 : 2 ^ n.log2 = 2 ^ keep * 2 ^ (n.log2 - keep) := by rw [← Nat.pow_add]; congr 1; omega
  have hp2 : 2 ^ (n.log2 + 1) = 2 ^ (keep + 1) * 2 ^ (n.log2 - keep) := by rw [← Nat.pow_add]; congr 1; omega
  have hdm := Nat.div_add_mod n (2 ^ (n.log2 - keep))
  have hml : n % 2 ^ (n.log2 - keep) < 2 ^ (n.log2 - keep) := Nat.mod_lt _ hd
  have hqlo : 2 ^ keep ≤ n / 2 ^ (n.log2 - keep) := by
    rw [Nat.le_div_iff_mul_le hd]
    omega
  have hqhi : n / 2 ^ (n.log2 - keep) < 2 ^ (keep + 1) := by
    rw [Nat.div_lt_iff_lt_mul hd]
    omega
  simp only [roundSignificand]
  rw [if_neg (by omega)]
  generalize 2 ^ (n.log2 - keep) = d at *
  generalize n / d = q at *
  generalize n % d = r at *
  have hqd : 2 * q * d = 2 * (d * q) := by ring
  have hqd1 : 2 * (q + 1) * d = 2 * (d * q) + 2 * d := by ring
  split
  · rw [hqd1]
    refine ⟨by omega, by omega, by omega, by omega, by omega⟩
  · rw [hqd]
    refine ⟨by omega, by omega, by omega, by omega, by omega⟩

end Sys2Proof.Machine
end

