-- ==== Sys2Proof/Laws/HostProgram.lean ====
section
/-! SUPPORT. What the host's bindings read as after each operation on them, and what a response does to a program. -/

namespace Sys2Proof.Machine

variable (bindings : List (String × PortWord)) (name other : String) (v : PortWord)

@[simp] theorem valueOf_unbindName_self : valueOf (unbindName bindings name) name = none := by
  simp [valueOf, unbindName, List.find?_filter]

@[simp] theorem valueOf_unbindName_of_ne (h : other ≠ name) :
    valueOf (unbindName bindings name) other = valueOf bindings other := by
  unfold valueOf unbindName
  rw [List.find?_filter]
  congr 2
  funext b
  by_cases hb : b.1 = other <;> simp_all

@[simp] theorem valueOf_bindName_self : valueOf (bindName bindings name v) name = some v := by
  simp [valueOf, bindName]

@[simp] theorem valueOf_bindName_of_ne (h : other ≠ name) :
    valueOf (bindName bindings name v) other = valueOf bindings other := by
  rw [← valueOf_unbindName_of_ne bindings name other h]
  simp [valueOf, bindName, Ne.symm h]

/-- A response with a result binds the destination and changes nothing else of the program (R94). -/
theorem HostState.receive_of_result (h : HostState) (dst : String) {s : State} {r : PortWord}
    (hst : s.status = some statusOk) (hres : s.res = some r) :
    h.receive dst s = { h with block := s, bindings := bindName h.bindings dst r } := by
  simp [receive, hst, hres]

/-- A response with a nonzero status ends the program in a fault state with the destination unbound, whatever it was
bound to before, and every other name as it was (R326). -/
theorem HostState.receive_of_fault (h : HostState) (dst : String) {s : State} {code : StatusWord}
    (hst : s.status = some code) (hc : code ≠ statusOk) :
    h.receive dst s =
      { block := s, bindings := unbindName h.bindings dst, lines := [], standing := .faultState code } := by
  cases hres : s.res <;> simp [receive, fault, stop, hst, hres, hc]

end Sys2Proof.Machine
end

