-- ==== Sys2Proof/Laws/WideWord.lean ====
section
/-! SUPPORT. The word-pair datapaths of the wide integer against the value hi * 2^128 + lo (10_state.md R54,
45_wide_integer.md). -/

namespace Sys2Proof.Machine

theorem Wide.toNat_lt (x : Wide) : x.toNat < 2 ^ 256 := by
  have hh := x.hi.isLt
  have hl := x.lo.isLt
  unfold Wide.toNat
  omega

@[simp] theorem Wide.toNat_zero : Wide.zero.toNat = 0 := rfl

@[simp] theorem Wide.toNat_allOnes : Wide.allOnes.toNat = 2 ^ 256 - 1 := by
  decide +kernel

/-- A port word reads as its wide integer. -/
@[simp] theorem Wide.toNat_ofWord (w : PortWord) : (Wide.ofWord w).toNat = w.toNat := by
  have hw := w.isLt
  simp only [Wide.ofWord, Wide.toNat, BitVec.extractLsb'_toNat, Nat.shiftRight_eq_div_pow]
  omega

/-- A wide integer on a port has its value. -/
@[simp] theorem Wide.toNat_toWord (x : Wide) : x.toWord.toNat = x.toNat := by
  have hl := x.lo.isLt
  simp only [Wide.toWord, Wide.toNat, BitVec.toNat_append]
  rw [← Nat.shiftLeft_add_eq_or_of_lt hl, Nat.shiftLeft_eq]

/-- The port word of a wide integer is the word of its value. -/
theorem Wide.toWord_eq (x : Wide) : x.toWord = BitVec.ofNat 256 x.toNat := by
  rw [← Wide.toNat_toWord, BitVec.ofNat_toNat, BitVec.setWidth_eq]

/-- The word-pair add is the saturating add of the values (R273). -/
theorem Wide.toNat_add (x y : Wide) : (x.add y).toNat = min (x.toNat + y.toNat) (2 ^ 256 - 1) := by
  have hxh := x.hi.isLt
  have hxl := x.lo.isLt
  have hyh := y.hi.isLt
  have hyl := y.lo.isLt
  simp only [Wide.add]
  split <;> split <;>
    simp only [Wide.toNat, Wide.allOnes, BitVec.toNat_ofNat, BitVec.toNat_add, BitVec.toNat_allOnes] at * <;> omega

/-- The word-pair comparison is the comparison of the values (R273). -/
theorem Wide.lt_iff (x y : Wide) : x.lt y = true ↔ x.toNat < y.toNat := by
  have hxl := x.lo.isLt
  have hyl := y.lo.isLt
  simp only [Wide.lt, Wide.toNat, Bool.or_eq_true, Bool.and_eq_true, decide_eq_true_eq, beq_iff_eq,
    ← BitVec.toNat_inj]
  omega

/-- The word-pair subtract is the subtract of the values, stopping at 0 (R273). -/
theorem Wide.toNat_sub (x y : Wide) : (x.sub y).toNat = x.toNat - y.toNat := by
  have hxh := x.hi.isLt
  have hxl := x.lo.isLt
  have hyh := y.hi.isLt
  have hyl := y.lo.isLt
  simp only [Wide.sub]
  split
  · rename_i h
    have := (Wide.lt_iff x y).mp h
    simp only [Wide.toNat_zero]
    omega
  · rename_i h
    have := mt (Wide.lt_iff x y).mpr h
    split <;>
      simp only [Wide.toNat, BitVec.toNat_sub, BitVec.ofNat_eq_ofNat, BitVec.toNat_ofNat] at * <;> omega

/-- The comparison is the sign of the difference of the values (R282). -/
theorem Wide.compare_eq (x y : Wide) : x.compare y = ((x.toNat : Int) - y.toNat).sign := by
  have hx := Wide.lt_iff x y
  have hy := Wide.lt_iff y x
  unfold Wide.compare
  split
  · rw [Int.sign_eq_neg_one_of_neg]
    have := hx.mp ‹_›
    omega
  · split
    · rw [Int.sign_eq_one_of_pos]
      have := hy.mp ‹_›
      omega
    · have h1 := mt hx.mpr ‹_›
      have h2 := mt hy.mpr ‹_›
      have : (x.toNat : Int) - y.toNat = 0 := by omega
      rw [this, Int.sign_zero]

/-- Two words whose bits do not meet, joined: the sum of their values. -/
theorem or_toNat_of_lt {lowBits a b : Nat} (h : b < 2 ^ lowBits) : a * 2 ^ lowBits ||| b = a * 2 ^ lowBits + b := by
  rw [← Nat.shiftLeft_eq, Nat.shiftLeft_add_eq_or_of_lt h]

/-- The word-pair left shift is multiplication by 2^k modulo 2^256 (R274). -/
theorem Wide.toNat_shl (x : Wide) {k : Nat} (hk : k < 256) : (x.shl k).toNat = x.toNat * 2 ^ k % 2 ^ 256 := by
  have hh := x.hi.isLt
  have hl := x.lo.isLt
  unfold Wide.shl
  split
  · subst k
    have := x.toNat_lt
    omega
  split
  · rename_i h0 h1
    simp only [Config.wideWordBits] at *
    obtain ⟨j, rfl⟩ : ∃ j, k = 128 - j := ⟨128 - k, by omega⟩
    have hj : 128 - (128 - j) = j := by omega
    have hj128 : j < 128 := by omega
    simp only [Wide.toNat, BitVec.toNat_or, BitVec.toNat_shiftLeft, BitVec.toNat_ushiftRight, hj,
      Nat.shiftLeft_eq, Nat.shiftRight_eq_div_pow]
    have hpow : (2 : Nat) ^ (128 - j) * 2 ^ j = 2 ^ 128 := by rw [← Nat.pow_add]; congr 1; omega
    have hsmall : x.lo.toNat / 2 ^ j < 2 ^ (128 - j) := by
      rw [Nat.div_lt_iff_lt_mul (by positivity), hpow]; exact hl
    have hmod : x.hi.toNat * 2 ^ (128 - j) % 2 ^ 128 = x.hi.toNat % 2 ^ j * 2 ^ (128 - j) := by
      rw [← hpow, Nat.mul_comm (2 ^ (128 - j)) (2 ^ j), Nat.mul_mod_mul_right]
    have hlo : x.lo.toNat * 2 ^ (128 - j) % 2 ^ 128 = x.lo.toNat % 2 ^ j * 2 ^ (128 - j) := by
      rw [← hpow, Nat.mul_comm (2 ^ (128 - j)) (2 ^ j), Nat.mul_mod_mul_right]
    rw [hmod, or_toNat_of_lt hsmall, hlo]
    have hdl := Nat.div_add_mod x.lo.toNat (2 ^ j)
    have hdh := Nat.div_add_mod x.hi.toNat (2 ^ j)
    have hjpos : 0 < 2 ^ j := by positivity
    have hmh : x.hi.toNat % 2 ^ j < 2 ^ j := Nat.mod_lt _ hjpos
    have hml : x.lo.toNat % 2 ^ j < 2 ^ j := Nat.mod_lt _ hjpos
    generalize hP : 2 ^ (128 - j) = P at *
    generalize hQ : 2 ^ j = Q at *
    generalize x.lo.toNat / Q = ld at *
    generalize x.lo.toNat % Q = lm at *
    generalize x.hi.toNat / Q = hd at *
    generalize x.hi.toNat % Q = hm at *
    rw [← hdl, ← hdh]
    have hsplit : ((Q * hd + hm) * 2 ^ 128 + (Q * ld + lm)) * P
        = ((hm * P + ld) * 2 ^ 128 + lm * P) + hd * 2 ^ 256 := by
      have : (2 : Nat) ^ 256 = P * Q * 2 ^ 128 := by rw [hpow]; norm_num
      rw [this, ← hpow]; ring
    rw [hsplit, Nat.add_mul_mod_self_right, Nat.mod_eq_of_lt]
    have h1 : lm * P + P ≤ Q * P := by nlinarith
    have h2 : hm * P + P ≤ Q * P := by nlinarith
    rw [Nat.mul_comm Q P, hpow] at h1 h2
    nlinarith
  · rename_i h0 h1
    simp only [Config.wideWordBits] at *
    obtain ⟨j, rfl⟩ : ∃ j, k = 128 + j := ⟨k - 128, by omega⟩
    have hj : 128 + j - 128 = j := by omega
    simp only [Wide.toNat, BitVec.toNat_shiftLeft, hj, Nat.shiftLeft_eq, BitVec.ofNat_eq_ofNat, BitVec.toNat_ofNat,
      Nat.zero_mod, Nat.add_zero]
    have hsplit : (x.hi.toNat * 2 ^ 128 + x.lo.toNat) * 2 ^ (128 + j)
        = x.lo.toNat * 2 ^ j * 2 ^ 128 + x.hi.toNat * 2 ^ j * 2 ^ 256 := by
      rw [Nat.pow_add]; ring
    rw [hsplit, Nat.add_mul_mod_self_right, show (2 : Nat) ^ 256 = 2 ^ 128 * 2 ^ 128 from by norm_num,
      Nat.mul_mod_mul_right]

/-- The word-pair right shift is division by 2^k, rounded down (R275). -/
theorem Wide.toNat_shr (x : Wide) {k : Nat} (hk : k < 256) : (x.shr k).toNat = x.toNat / 2 ^ k := by
  have hh := x.hi.isLt
  have hl := x.lo.isLt
  unfold Wide.shr
  split
  · subst k
    simp
  split
  · rename_i h0 h1
    simp only [Config.wideWordBits] at *
    simp only [Wide.toNat, BitVec.toNat_or, BitVec.toNat_shiftLeft, BitVec.toNat_ushiftRight,
      Nat.shiftLeft_eq, Nat.shiftRight_eq_div_pow]
    have hpow : (2 : Nat) ^ (128 - k) * 2 ^ k = 2 ^ 128 := by rw [← Nat.pow_add]; congr 1; omega
    have hsmall : x.lo.toNat / 2 ^ k < 2 ^ (128 - k) := by
      rw [Nat.div_lt_iff_lt_mul (by positivity), hpow]; exact hl
    have hmod : x.hi.toNat * 2 ^ (128 - k) % 2 ^ 128 = x.hi.toNat % 2 ^ k * 2 ^ (128 - k) := by
      rw [← hpow, Nat.mul_comm (2 ^ (128 - k)) (2 ^ k), Nat.mul_mod_mul_right]
    rw [hmod, Nat.or_comm, or_toNat_of_lt hsmall]
    have hdh := Nat.div_add_mod x.hi.toNat (2 ^ k)
    have hkpos : 0 < 2 ^ k := by positivity
    have hsplit : x.hi.toNat * 2 ^ 128 + x.lo.toNat
        = x.lo.toNat + (x.hi.toNat / 2 ^ k * 2 ^ 128 + x.hi.toNat % 2 ^ k * 2 ^ (128 - k)) * 2 ^ k := by
      conv_lhs => rw [← hdh]
      rw [Nat.add_mul (x.hi.toNat / 2 ^ k * 2 ^ 128), Nat.mul_assoc (x.hi.toNat % 2 ^ k), hpow]
      ring
    have hdiv := Nat.add_mul_div_right x.lo.toNat
      (x.hi.toNat / 2 ^ k * 2 ^ 128 + x.hi.toNat % 2 ^ k * 2 ^ (128 - k)) hkpos
    rw [← hsplit] at hdiv
    rw [hdiv, ← Nat.add_assoc, Nat.add_comm]
  · rename_i h0 h1
    simp only [Config.wideWordBits] at *
    obtain ⟨j, rfl⟩ : ∃ j, k = 128 + j := ⟨k - 128, by omega⟩
    have hj : 128 + j - 128 = j := by omega
    simp only [Wide.toNat, BitVec.toNat_ushiftRight, hj, Nat.shiftRight_eq_div_pow, BitVec.ofNat_eq_ofNat,
      BitVec.toNat_ofNat, Nat.zero_mod, Nat.zero_mul, Nat.zero_add]
    have hhi : (x.hi.toNat * 2 ^ 128 + x.lo.toNat) / 2 ^ 128 = x.hi.toNat := by omega
    have hdiv := Nat.div_div_eq_div_mul (x.hi.toNat * 2 ^ 128 + x.lo.toNat) (2 ^ 128) (2 ^ j)
    rw [hhi, ← Nat.pow_add] at hdiv
    exact hdiv

/-- The schoolbook multiply is the exact product (R280). -/
theorem Wide.toNat_mul (a b : HalfWord) : (Wide.mul a b).toNat = a.toNat * b.toNat := by
  have ha := a.isLt
  have hb := b.isLt
  simp only [Wide.mul, Wide.toNat, BitVec.toNat_ofNat]
  have hda := Nat.div_add_mod a.toNat (2 ^ 64)
  have hdb := Nat.div_add_mod b.toNat (2 ^ 64)
  generalize a.toNat / 2 ^ 64 = a1 at *
  generalize a.toNat % 2 ^ 64 = a0 at *
  generalize b.toNat / 2 ^ 64 = b1 at *
  generalize b.toNat % 2 ^ 64 = b0 at *
  generalize hm : a1 * b0 + a0 * b1 = mid
  have hdm := Nat.div_add_mod mid (2 ^ 64)
  generalize mid / 2 ^ 64 = md at *
  generalize mid % 2 ^ 64 = mm at *
  generalize hlow : a0 * b0 + mm * 2 ^ 64 = low
  have hdl := Nat.div_add_mod low (2 ^ 128)
  generalize low / 2 ^ 128 = ld at *
  generalize low % 2 ^ 128 = lm at *
  have hprod : a.toNat * b.toNat = (a1 * b1 + md + ld) * 2 ^ 128 + lm := by
    have h1 : a.toNat * b.toNat = a1 * b1 * 2 ^ 128 + mid * 2 ^ 64 + a0 * b0 := by
      rw [← hda, ← hdb, ← hm]; ring
    rw [h1]
    omega
  have hlt : a1 * b1 + md + ld < 2 ^ 128 := by
    have : a.toNat * b.toNat < 2 ^ 128 * 2 ^ 128 := Nat.mul_lt_mul'' ha hb
    rw [hprod] at this
    by_contra hge
    have : 2 ^ 128 * 2 ^ 128 ≤ (a1 * b1 + md + ld) * 2 ^ 128 := Nat.mul_le_mul_right _ (by omega)
    omega
  rw [Nat.mod_eq_of_lt hlt, hprod]

end Sys2Proof.Machine
end

