-- ==== Sys2Proof/Laws/Layout.lean ====
section
/-! SUPPORT. The layouts, the integer readings, and the saturating writes: what each does, in terms of the integer
reading of patterns (10_state.md R44 to R53, 44_saturating_arith.md R230). -/

namespace Sys2Proof

theorem CType.bits_pos (t : CType) : 0 < t.bits := by
  rcases t with ⟨_ | _ | _ | _ | _, _⟩ <;> simp [CType.bits, Width.bits]

theorem CType.bits_le (t : CType) : t.bits ≤ 128 := by
  rcases t with ⟨_ | _ | _ | _ | _, _⟩ <;> simp [CType.bits, Width.bits]

/-- N = 1 + I + F for a signed type, N = I + F for an unsigned one (R44, R45). -/
theorem CType.bits_eq (t : CType) : t.bits = t.signed.toNat + t.intBits + t.fracBits := by
  obtain ⟨w, s⟩ := t
  cases w <;> cases s <;> decide

theorem CType.two_pow_bits (t : CType) : 2 ^ t.bits = 2 * 2 ^ (t.bits - 1) := by
  rw [← Nat.pow_succ', Nat.succ_eq_add_one, Nat.sub_add_cancel t.bits_pos]

namespace Machine

/-- Clamping a number that is in range changes nothing. -/
theorem clampInt_of_mem {x lo hi : Int} (h1 : lo ≤ x) (h2 : x ≤ hi) : clampInt x lo hi = x := by
  unfold clampInt
  rw [if_neg (by omega), if_neg (by omega)]

/-- A clamped number is in range. -/
theorem clampInt_mem {lo hi : Int} (x : Int) (h : lo ≤ hi) : lo ≤ clampInt x lo hi ∧ clampInt x lo hi ≤ hi := by
  unfold clampInt
  split <;> [skip; split] <;> omega

theorem minInt_le_zero (t : CType) : minInt t ≤ 0 := by
  have h : (0 : Int) < 2 ^ (t.bits - 1) := by positivity
  unfold minInt
  split <;> omega

theorem zero_le_maxInt (t : CType) : 0 ≤ maxInt t := by
  have h : (0 : Int) < 2 ^ (t.bits - 1) := by positivity
  have h' : (0 : Int) < 2 ^ t.bits := by positivity
  unfold maxInt
  split <;> omega

theorem minInt_le_maxInt (t : CType) : minInt t ≤ maxInt t :=
  (minInt_le_zero t).trans (zero_le_maxInt t)

/-- MAXmag_T is the integer reading of MAX_T (R53). -/
theorem maxMag_eq (t : CType) : (maxMag t : Int) = maxInt t := by
  have h : 1 ≤ 2 ^ (t.bits - 1) := Nat.one_le_two_pow
  have h' : 1 ≤ 2 ^ t.bits := Nat.one_le_two_pow
  unfold maxMag maxInt
  split <;> push_cast [h, h'] <;> rfl

/-- Every pattern reads as an integer of the type's range (R52). -/
theorem intOf_mem (t : CType) (b : t.Pattern) : minInt t ≤ intOf t b ∧ intOf t b ≤ maxInt t := by
  unfold intOf minInt maxInt
  split
  · have h1 := @BitVec.le_toInt t.bits b
    have h2 := @BitVec.toInt_lt t.bits b
    omega
  · have h := b.isLt
    have : (b.toNat : Int) < 2 ^ t.bits := by exact_mod_cast h
    omega

/-- An integer of the type's range is read back from its pattern. -/
theorem intOf_bitsOf {t : CType} {y : Int} (h1 : minInt t ≤ y) (h2 : y ≤ maxInt t) : intOf t (bitsOf t y) = y := by
  have hpos := t.bits_pos
  unfold intOf bitsOf
  unfold minInt maxInt at *
  have hp : (2 : Int) ^ t.bits = 2 * 2 ^ (t.bits - 1) := by exact_mod_cast t.two_pow_bits
  split
  · rename_i hs
    rw [if_pos hs] at h1 h2
    rw [BitVec.toInt_ofInt]
    apply Int.bmod_eq_of_le
    · push_cast; rw [hp]; omega
    · push_cast; rw [hp]; omega
  · rename_i hs
    rw [if_neg hs] at h1 h2
    rw [BitVec.toNat_ofInt]
    push_cast
    rw [Int.toNat_of_nonneg (Int.emod_nonneg _ (by positivity)), Int.emod_eq_of_lt h1 (by omega)]

/-- The pattern of a pattern's integer reading is the pattern. -/
theorem bitsOf_intOf (t : CType) (b : t.Pattern) : bitsOf t (intOf t b) = b := by
  unfold intOf bitsOf
  split
  · exact BitVec.ofInt_toInt
  · apply BitVec.eq_of_toNat_eq
    simp

/-- Two patterns with one integer reading are one pattern (R48). -/
theorem intOf_injective {t : CType} {a b : t.Pattern} (h : intOf t a = intOf t b) : a = b := by
  rw [← bitsOf_intOf t a, h, bitsOf_intOf]

/-- The saturating write reads as the clamped integer (R230). -/
@[simp] theorem intOf_saturate (t : CType) (y : Int) : intOf t (saturate t y) = clampInt y (minInt t) (maxInt t) := by
  have h := clampInt_mem y (minInt_le_maxInt t)
  exact intOf_bitsOf h.1 h.2

theorem minPattern_eq (t : CType) : minPattern t = bitsOf t (minInt t) := by
  unfold minPattern bitsOf minInt
  split
  · apply BitVec.eq_of_toInt_eq
    rw [BitVec.toInt_ofInt, BitVec.toInt_ofNat']
    push_cast
    have hp : (2 : Int) ^ t.bits = 2 * 2 ^ (t.bits - 1) := by exact_mod_cast t.two_pow_bits
    rw [← Int.emod_bmod, ← Int.emod_bmod (-2 ^ (t.bits - 1))]
    congr 1
    push_cast
    rw [hp]
    have h0 : (0 : Int) < 2 ^ (t.bits - 1) := by positivity
    generalize (2 : Int) ^ (t.bits - 1) = m at *
    rw [← Int.add_emod_right (-m) (2 * m), Int.emod_eq_of_lt (by omega) (by omega),
      Int.emod_eq_of_lt (by omega) (by omega)]
    omega
  · simp

theorem maxPattern_eq (t : CType) : maxPattern t = bitsOf t (maxInt t) := by
  unfold maxPattern bitsOf
  rw [← maxMag_eq, BitVec.ofInt_natCast]

@[simp] theorem intOf_minPattern (t : CType) : intOf t (minPattern t) = minInt t := by
  rw [minPattern_eq]
  exact intOf_bitsOf le_rfl (minInt_le_maxInt t)

@[simp] theorem intOf_maxPattern (t : CType) : intOf t (maxPattern t) = maxInt t := by
  rw [maxPattern_eq]
  exact intOf_bitsOf (minInt_le_maxInt t) le_rfl

/-- The sign bit of a pattern says whether it reads as a negative integer (R202, R234). -/
theorem isNegative_iff (t : CType) (b : t.Pattern) : isNegative t b = true ↔ intOf t b < 0 := by
  unfold isNegative intOf
  split
  · simp_all [BitVec.msb_eq_toInt]
  · simp_all

/-- A pattern reads as its magnitude with its sign (R17). -/
theorem intOf_eq_magnitude (t : CType) (b : t.Pattern) :
    intOf t b = if isNegative t b then -(magnitude t b : Int) else magnitude t b := by
  have h := isNegative_iff t b
  unfold magnitude
  split <;> rename_i hn
  · have := h.mp hn
    omega
  · have := mt h.mpr hn
    omega

/-- Applying a sign to a magnitude with saturation is the clamp of the signed magnitude; a sign is only ever applied
to a signed type (R165, R206, R235). -/
theorem intOf_signMagnitude {t : CType} {neg : Bool} {m : Nat} (h : neg = true → t.signed = true) :
    intOf t (signMagnitude t neg m) = clampInt (if neg then -(m : Int) else m) (minInt t) (maxInt t) := by
  have hp := t.two_pow_bits
  have h0 : 0 < 2 ^ (t.bits - 1) := by positivity
  have hpi : (2 : Int) ^ t.bits = 2 * 2 ^ (t.bits - 1) := by exact_mod_cast hp
  have h0i : (0 : Int) < 2 ^ (t.bits - 1) := by positivity
  have hmin := minInt_le_zero t
  have hmax := zero_le_maxInt t
  unfold signMagnitude
  split
  · rename_i hneg
    have hs := h hneg
    have hmi : minInt t = -(2 ^ (t.bits - 1) : Int) := by unfold minInt; rw [if_pos hs]
    have hma : maxInt t = 2 ^ (t.bits - 1) - 1 := by unfold maxInt; rw [if_pos hs]
    split
    · rename_i hm
      have hmI : (2 : Int) ^ (t.bits - 1) ≤ m := by exact_mod_cast hm
      rw [intOf_minPattern]
      unfold clampInt
      split <;> [skip; rw [if_neg (by omega)]] <;> omega
    · rename_i hm
      have hmI : (m : Int) < 2 ^ (t.bits - 1) := by exact_mod_cast Nat.lt_of_not_le hm
      rw [clampInt_of_mem (by omega) (by omega)]
      have hb : BitVec.ofNat t.bits (2 ^ t.bits - m) = bitsOf t (-(m : Int)) := by
        unfold bitsOf
        apply BitVec.eq_of_toNat_eq
        rw [BitVec.toNat_ofNat, BitVec.toNat_ofInt]
        zify
        rw [Int.toNat_of_nonneg (Int.emod_nonneg _ (by positivity)), Nat.cast_sub (by omega)]
        push_cast
        rw [sub_eq_neg_add, Int.add_emod_right]
      rw [hb, intOf_bitsOf (by omega) (by omega)]
  · rename_i hneg
    have hmm := maxMag_eq t
    split
    · rw [intOf_maxPattern]
      unfold clampInt
      split <;> [skip; split] <;> omega
    · rw [clampInt_of_mem (by omega) (by omega)]
      have hb : BitVec.ofNat t.bits m = bitsOf t (m : Int) := by
        unfold bitsOf
        rw [BitVec.ofInt_natCast]
      rw [hb, intOf_bitsOf (by omega) (by omega)]

/-- Saturating negate is the saturating write of the negated integer (R231). -/
theorem negate_eq (t : CType) (a : t.Pattern) : negate t a = saturate t (-intOf t a) := by
  apply intOf_injective
  rw [intOf_saturate]
  have hmem := intOf_mem t a
  have h0i : (0 : Int) < 2 ^ (t.bits - 1) := by positivity
  unfold negate
  split
  · rename_i hs
    have hmi : minInt t = -(2 ^ (t.bits - 1) : Int) := by unfold minInt; rw [if_pos hs]
    have hma : maxInt t = 2 ^ (t.bits - 1) - 1 := by unfold maxInt; rw [if_pos hs]
    split
    · rename_i ha
      rw [ha, intOf_minPattern, intOf_maxPattern]
      unfold clampInt
      rw [if_neg (by omega), if_pos (by omega)]
    · rename_i ha
      have hne : intOf t a ≠ minInt t := fun he => ha (intOf_injective (by rw [he, intOf_minPattern]))
      rw [clampInt_of_mem (by omega) (by omega)]
      have hb : ~~~a + 1 = bitsOf t (-intOf t a) := by
        have hn : ~~~a + 1 = -a := (BitVec.neg_eq_not_add a).symm
        rw [hn]
        unfold bitsOf intOf
        rw [if_pos hs, BitVec.ofInt_neg, BitVec.ofInt_toInt]
      rw [hb, intOf_bitsOf (by omega) (by omega)]
  · rename_i hs
    have hmi : minInt t = 0 := by unfold minInt; rw [if_neg hs]
    have : intOf t (0 : t.Pattern) = 0 := by simp [intOf, hs]
    rw [this]
    unfold clampInt
    split <;> [skip; split] <;> omega

theorem maxMag_lt (t : CType) : maxMag t < 2 ^ t.bits := by
  have h := t.two_pow_bits
  have h0 : 0 < 2 ^ (t.bits - 1) := by positivity
  unfold maxMag
  split <;> omega

/-- No magnitude needs more than N bits, so the 128-bit multiply takes magnitudes whole (R239). -/
theorem magnitude_lt (t : CType) (a : t.Pattern) : magnitude t a < 2 ^ t.bits := by
  have h := intOf_mem t a
  have hm := maxMag_eq t
  have hlt := maxMag_lt t
  have hp := t.two_pow_bits
  have h0 : 0 < 2 ^ (t.bits - 1) := by positivity
  have hmin : -(2 ^ (t.bits - 1) : Int) ≤ minInt t := by
    unfold minInt
    split
    · exact le_rfl
    · have : (0 : Int) < 2 ^ (t.bits - 1) := by positivity
      omega
  have hcast : ((2 ^ (t.bits - 1) : Nat) : Int) = 2 ^ (t.bits - 1) := by push_cast; rfl
  unfold magnitude
  omega

theorem mulMagnitude_lt (t : CType) (a : t.Pattern) : mulMagnitude t a < 2 ^ t.bits := by
  unfold mulMagnitude
  split
  · exact maxMag_lt t
  · exact magnitude_lt t a

/-- The wide datapath of the 128-bit multiply gives the same rescaled product as the native one: the exact product
over 2^F, rounded down (R235, R239). -/
theorem rescaledProduct_eq {t : CType} {ma mb : Nat} (ha : ma < 2 ^ t.bits) (hb : mb < 2 ^ t.bits) :
    rescaledProduct t ma mb = ma * mb / 2 ^ t.fracBits := by
  unfold rescaledProduct
  split
  · have hbits : t.bits = 128 := by simp [CType.bits, Width.bits, *]
    have hfrac : t.fracBits < 256 := by simp [CType.fracBits, *]
    rw [hbits] at ha hb
    rw [Wide.toNat_shr _ hfrac, Wide.toNat_mul, BitVec.toNat_ofNat, BitVec.toNat_ofNat,
      Nat.mod_eq_of_lt ha, Nat.mod_eq_of_lt hb]
  · rfl

end Machine

end Sys2Proof
end

