-- ==== Sys2Proof/Laws/State.lean ====
section
/-! SUPPORT. One lemma per field of State and operation on it, so that no proof unfolds a record update. -/

namespace Sys2Proof.Machine

variable (s : State) (v : PortWord) (c : StatusFault) (r : Request) (rest : List Request)

@[simp] theorem State.complete_cmd : (s.complete v).cmd = s.cmd := rfl
@[simp] theorem State.complete_a : (s.complete v).a = s.a := rfl
@[simp] theorem State.complete_b : (s.complete v).b = s.b := rfl
@[simp] theorem State.complete_res : (s.complete v).res = some v := rfl
@[simp] theorem State.complete_status : (s.complete v).status = some 0 := rfl
@[simp] theorem State.complete_pending : (s.complete v).pending = s.pending := rfl

@[simp] theorem State.raiseFault_cmd : (s.raiseFault c).cmd = s.cmd := rfl
@[simp] theorem State.raiseFault_a : (s.raiseFault c).a = s.a := rfl
@[simp] theorem State.raiseFault_b : (s.raiseFault c).b = s.b := rfl
@[simp] theorem State.raiseFault_res : (s.raiseFault c).res = none := rfl
@[simp] theorem State.raiseFault_status : (s.raiseFault c).status = some c.code := rfl
@[simp] theorem State.raiseFault_pending : (s.raiseFault c).pending = s.pending := rfl

@[simp] theorem State.sample_cmd : (s.sample r rest).cmd = r.cmd := rfl
@[simp] theorem State.sample_a : (s.sample r rest).a = r.a := rfl
@[simp] theorem State.sample_b : (s.sample r rest).b = r.b := rfl
@[simp] theorem State.sample_res : (s.sample r rest).res = s.res := rfl
@[simp] theorem State.sample_status : (s.sample r rest).status = s.status := rfl
@[simp] theorem State.sample_pending : (s.sample r rest).pending = rest := rfl

@[simp] theorem State.idle_cmd : s.idle.cmd = s.cmd := rfl
@[simp] theorem State.idle_a : s.idle.a = s.a := rfl
@[simp] theorem State.idle_b : s.idle.b = s.b := rfl
@[simp] theorem State.idle_res : s.idle.res = none := rfl
@[simp] theorem State.idle_status : s.idle.status = none := rfl
@[simp] theorem State.idle_pending : s.idle.pending = s.pending := rfl

@[simp] theorem State.present_cmd : (s.present r).cmd = s.cmd := rfl
@[simp] theorem State.present_a : (s.present r).a = s.a := rfl
@[simp] theorem State.present_b : (s.present r).b = s.b := rfl
@[simp] theorem State.present_res : (s.present r).res = s.res := rfl
@[simp] theorem State.present_status : (s.present r).status = s.status := rfl
@[simp] theorem State.present_pending : (s.present r).pending = s.pending ++ [r] := rfl

@[simp] theorem State.resetBlock_cmd : s.resetBlock.cmd = s.cmd := rfl
@[simp] theorem State.resetBlock_a : s.resetBlock.a = s.a := rfl
@[simp] theorem State.resetBlock_b : s.resetBlock.b = s.b := rfl
@[simp] theorem State.resetBlock_res : s.resetBlock.res = none := rfl
@[simp] theorem State.resetBlock_status : s.resetBlock.status = none := rfl
@[simp] theorem State.resetBlock_pending : s.resetBlock.pending = [] := rfl

@[simp] theorem State.rejectIllegal_eq : s.rejectIllegal = s.raiseFault .illegalCmd := rfl

@[simp] theorem StatusFault.code_illegalCmd : StatusFault.code .illegalCmd = 1 := rfl
@[simp] theorem StatusFault.code_nanInput : StatusFault.code .nanInput = 2 := rfl
@[simp] theorem StatusFault.code_shiftRange : StatusFault.code .shiftRange = 3 := rfl

/-- The outputs of a request do not depend on what the output ports held before: both are written together. -/
theorem State.complete_eq : s.complete v = { s with res := some v, status := some 0 } := rfl

theorem State.raiseFault_eq : s.raiseFault c = { s with res := none, status := some c.code } := rfl

theorem State.sample_eq :
    s.sample r rest = { s with cmd := r.cmd, a := r.a, b := r.b, pending := rest } := rfl

end Sys2Proof.Machine
end

