-- ==== Sys2Proof/Laws/Ops.lean ====
section
/-! SUPPORT. What a command and a step can do, said once: every later proof about all commands cites these. -/

namespace Sys2Proof.Machine

/-- Every command answers: it completes with a result, or it faults with one of the three codes. -/
theorem exec_cases (i : Instr) (s : State) :
    (∃ v, exec i s = .next (s.complete v)) ∨ (∃ c, exec i s = .next (s.raiseFault c)) := by
  cases i
  case enc t fmt =>
    simp only [exec, execEnc]
    split
    · exact .inr ⟨_, rfl⟩
    · exact .inl ⟨_, rfl⟩
  case wShl =>
    simp only [exec, execWShl]
    split
    · exact .inr ⟨_, rfl⟩
    · exact .inl ⟨_, rfl⟩
  case wShr =>
    simp only [exec, execWShr]
    split
    · exact .inr ⟨_, rfl⟩
    · exact .inl ⟨_, rfl⟩
  all_goals exact .inl ⟨_, rfl⟩

/-- The answer to the request on the input ports completes it or faults. -/
theorem answer_cases (s : State) :
    (∃ v, answer s = .next (s.complete v)) ∨ (∃ c, answer s = .next (s.raiseFault c)) := by
  unfold answer
  split
  · exact exec_cases _ s
  · exact .inr ⟨_, rfl⟩

/-- A step idles, or samples the oldest request and completes it or faults. -/
theorem step_cases (s : State) :
    (s.pending = [] ∧ step s = .next s.idle) ∨
    (∃ r rest, s.pending = r :: rest ∧
      ((∃ v, step s = .next ((s.sample r rest).complete v)) ∨
        (∃ c, step s = .next ((s.sample r rest).raiseFault c)))) := by
  unfold step
  match h : s.pending with
  | [] => exact .inl ⟨rfl, rfl⟩
  | r :: rest => exact .inr ⟨r, rest, rfl, answer_cases (s.sample r rest)⟩

/-- A step with a request waiting answers that request. -/
theorem step_of_pending {s : State} {r : Request} {rest : List Request} (h : s.pending = r :: rest) :
    step s = answer (s.sample r rest) := by
  simp [step, h]

/-- A step with no request waiting idles. -/
theorem step_of_idle {s : State} (h : s.pending = []) : step s = .next s.idle := by
  simp [step, h]

/-- A legal command word runs its command. -/
theorem answer_of_decode {s : State} {i : Instr} (h : decode s.cmd = .ok i) : answer s = exec i s := by
  simp [answer, h]

/-- An illegal command word is rejected, whatever the reason. -/
theorem answer_of_illegal {s : State} {e : DecodeError} (h : decode s.cmd = .error e) :
    answer s = .next s.rejectIllegal := by
  simp [answer, h]

end Sys2Proof.Machine
end

