-- ==== Sys2Proof/Laws/PerInstr.lean ====
section
/-! SUPPORT. Statements made per instruction (LAWS.json): the word of every well-formed command is legal by the
pseudocode of 30_encoding.md R89. -/

namespace Sys2Proof.Laws.EncodeLegal

/-- The word of a well-formed command is legal (R89, R96). -/
def Statement (i : Instr) : Prop :=
  i.wellFormed = true → legal (encode i) = true

theorem fromBits (t : CType) : Statement (.fromBits t) := by
  rcases t with ⟨_ | _ | _ | _ | _, _ | _⟩ <;> unfold Statement <;> decide

theorem signBit (t : CType) : Statement (.signBit t) := by
  rcases t with ⟨_ | _ | _ | _ | _, _ | _⟩ <;> unfold Statement <;> decide

theorem sign (t : CType) : Statement (.sign t) := by
  rcases t with ⟨_ | _ | _ | _ | _, _ | _⟩ <;> unfold Statement <;> decide

theorem intC (t : CType) : Statement (.intC t) := by
  rcases t with ⟨_ | _ | _ | _ | _, _ | _⟩ <;> unfold Statement <;> decide

theorem fracC (t : CType) : Statement (.fracC t) := by
  rcases t with ⟨_ | _ | _ | _ | _, _ | _⟩ <;> unfold Statement <;> decide

theorem ldMin (t : CType) : Statement (.ldMin t) := by
  rcases t with ⟨_ | _ | _ | _ | _, _ | _⟩ <;> unfold Statement <;> decide

theorem ldMax (t : CType) : Statement (.ldMax t) := by
  rcases t with ⟨_ | _ | _ | _ | _, _ | _⟩ <;> unfold Statement <;> decide

theorem ldGrain (t : CType) : Statement (.ldGrain t) := by
  rcases t with ⟨_ | _ | _ | _ | _, _ | _⟩ <;> unfold Statement <;> decide

theorem ldPi (t : CType) : Statement (.ldPi t) := by
  rcases t with ⟨_ | _ | _ | _ | _, _ | _⟩ <;> unfold Statement <;> decide

theorem ldE (t : CType) : Statement (.ldE t) := by
  rcases t with ⟨_ | _ | _ | _ | _, _ | _⟩ <;> unfold Statement <;> decide

theorem ldMinF (t : CType) : Statement (.ldMinF t) := by
  rcases t with ⟨_ | _ | _ | _ | _, _ | _⟩ <;> unfold Statement <;> decide

theorem ldMaxF (t : CType) : Statement (.ldMaxF t) := by
  rcases t with ⟨_ | _ | _ | _ | _, _ | _⟩ <;> unfold Statement <;> decide

theorem enc (t : CType) (fmt : FloatFmt) : Statement (.enc t fmt) := by
  rcases t with ⟨_ | _ | _ | _ | _, _ | _⟩ <;> cases fmt <;> unfold Statement <;> decide

theorem dec (t : CType) (fmt : FloatFmt) : Statement (.dec t fmt) := by
  rcases t with ⟨_ | _ | _ | _ | _, _ | _⟩ <;> cases fmt <;> unfold Statement <;> decide

theorem conv (ta tb : CType) : Statement (.conv ta tb) := by
  rcases ta with ⟨_ | _ | _ | _ | _, _ | _⟩ <;> rcases tb with ⟨_ | _ | _ | _ | _, _ | _⟩ <;>
    unfold Statement <;> decide

theorem neg (t : CType) : Statement (.neg t) := by
  rcases t with ⟨_ | _ | _ | _ | _, _ | _⟩ <;> unfold Statement <;> decide

theorem add (t : CType) : Statement (.add t) := by
  rcases t with ⟨_ | _ | _ | _ | _, _ | _⟩ <;> unfold Statement <;> decide

theorem sub (t : CType) : Statement (.sub t) := by
  rcases t with ⟨_ | _ | _ | _ | _, _ | _⟩ <;> unfold Statement <;> decide

theorem mul (t : CType) : Statement (.mul t) := by
  rcases t with ⟨_ | _ | _ | _ | _, _ | _⟩ <;> unfold Statement <;> decide

theorem equal (t : CType) : Statement (.equal t) := by
  rcases t with ⟨_ | _ | _ | _ | _, _ | _⟩ <;> unfold Statement <;> decide

theorem compare (t : CType) : Statement (.compare t) := by
  rcases t with ⟨_ | _ | _ | _ | _, _ | _⟩ <;> unfold Statement <;> decide

theorem wFrom : Statement .wFrom := by
  unfold Statement
  decide

theorem wAdd : Statement .wAdd := by
  unfold Statement
  decide

theorem wSub : Statement .wSub := by
  unfold Statement
  decide

theorem wShl : Statement .wShl := by
  unfold Statement
  decide

theorem wShr : Statement .wShr := by
  unfold Statement
  decide

theorem wAnd : Statement .wAnd := by
  unfold Statement
  decide

theorem wOr : Statement .wOr := by
  unfold Statement
  decide

theorem wXor : Statement .wXor := by
  unfold Statement
  decide

theorem wNot : Statement .wNot := by
  unfold Statement
  decide

theorem wMul : Statement .wMul := by
  unfold Statement
  decide

theorem wCmp : Statement .wCmp := by
  unfold Statement
  decide

end Sys2Proof.Laws.EncodeLegal
end

