-- ==== Sys2Proof/Tests/Slice0.lean ====
section
/-! SUPPORT. Tests of the model: the checks of WellFormed, decoding, one or two vectors of 95_test_vectors.md or of a
rule's own example per command, and for every statement with hypotheses a state that meets them. -/

set_option Elab.async false

namespace Sys2Proof.Tests

open Machine

/-! ## WellFormed -/

theorem test_conv_across_signedness_is_ill_formed :
    Instr.wellFormed (.conv ⟨.w8, true⟩ ⟨.w16, false⟩) = false := by decide

theorem test_conv_within_signedness_is_well_formed :
    Instr.wellFormed (.conv ⟨.w8, true⟩ ⟨.w16, true⟩) = true := by decide

/-! ## Decoding: words written out from R80 and R88, most significant field first:
RSV (15 bits), FMT, SB, WB, SA, WA, OPC. -/

theorem test_decode_fracC_s32 :
    decode 0b000000000000000_0_0_000_1_010_00000101 = .ok (.fracC ⟨.w32, true⟩) := by decide

theorem test_decode_ldMax_u8 :
    decode 0b000000000000000_0_0_000_0_000_00010001 = .ok (.ldMax ⟨.w8, false⟩) := by decide

theorem test_decode_enc_u32_f32 :
    decode 0b000000000000000_1_0_000_0_010_00100000 = .ok (.enc ⟨.w32, false⟩ .f32) := by decide

theorem test_decode_dec_s128_f64 :
    decode 0b000000000000000_0_0_000_1_100_00100001 = .ok (.dec ⟨.w128, true⟩ .f64) := by decide

theorem test_decode_conv_s64_s16 :
    decode 0b000000000000000_0_1_001_1_011_00110000 = .ok (.conv ⟨.w64, true⟩ ⟨.w16, true⟩) := by decide

theorem test_decode_sub_s16 :
    decode 0b000000000000000_0_0_000_1_001_01000010 = .ok (.sub ⟨.w16, true⟩) := by decide

theorem test_decode_wShr :
    decode 0b000000000000000_0_0_000_0_000_10000100 = .ok .wShr := by decide

/-- Every OPC of R88 stands for the command of its row, in the order of the table, on the type s16 and the format
binary64. -/
theorem test_decode_opcode_map :
    [0x01, 0x02, 0x03, 0x04, 0x05, 0x10, 0x11, 0x12, 0x13, 0x14, 0x15, 0x16, 0x20, 0x21].map
        (fun opc => (decode (BitVec.ofNat 32 (0x900 + opc))).toOption) =
      ([.fromBits ⟨.w16, true⟩, .signBit ⟨.w16, true⟩, .sign ⟨.w16, true⟩, .intC ⟨.w16, true⟩, .fracC ⟨.w16, true⟩,
        .ldMin ⟨.w16, true⟩, .ldMax ⟨.w16, true⟩, .ldGrain ⟨.w16, true⟩, .ldPi ⟨.w16, true⟩, .ldE ⟨.w16, true⟩,
        .ldMinF ⟨.w16, true⟩, .ldMaxF ⟨.w16, true⟩, .enc ⟨.w16, true⟩ .f64, .dec ⟨.w16, true⟩ .f64].map some) ∧
    [0x40, 0x41, 0x42, 0x43, 0x44, 0x45].map (fun opc => (decode (BitVec.ofNat 32 (0x900 + opc))).toOption) =
      ([.neg ⟨.w16, true⟩, .add ⟨.w16, true⟩, .sub ⟨.w16, true⟩, .mul ⟨.w16, true⟩, .equal ⟨.w16, true⟩,
        .compare ⟨.w16, true⟩].map some) ∧
    [0x80, 0x81, 0x82, 0x83, 0x84, 0x85, 0x86, 0x87, 0x88, 0x89, 0x8A].map
        (fun opc => (decode (BitVec.ofNat 32 opc)).toOption) =
      ([.wFrom, .wAdd, .wSub, .wShl, .wShr, .wAnd, .wOr, .wXor, .wNot, .wMul, .wCmp].map some) := by decide +kernel

/-- The illegal words of 95_test_vectors.md section 7, each for its own reason. -/
theorem test_decode_illegal_words :
    [0x00000000, 0x00000541, 0x00010841, 0x00020841, 0x00001830, 0x0000F830, 0x00000181, 0x0000008B, 0x00000817,
      0x00010C15, 0x00008841].map decode =
    [.error .reservedOpcode, .error .reservedWidth, .error .formatNotZero, .error .reservedBits,
      .error .signednessMismatch, .error .reservedWidth, .error .typeNotZero, .error .reservedOpcode,
      .error .reservedOpcode, .error .formatNotZero, .error .targetNotZero] := by decide +kernel

theorem test_decodeTableWord : decodeTableWord 32 0x00000841 = some (.add ⟨.w8, true⟩) := by decide

theorem test_withFetchWord :
    step (State.reset.withFetchWord 32 0x00000811) = .next { State.reset with
      cmd := 0x00000811, res := some 0x7F, status := some 0 } := by rfl

/-! ## One step per command -/

/-- The block just reset, with one request. -/
def asking (cmd : CmdWord) (a b : PortWord) : State :=
  State.reset.present ⟨cmd, a, b⟩

/-- RES and STATUS after the step that answers the request. -/
def response (cmd : CmdWord) (a b : PortWord) : Option (Option PortWord × Option StatusWord) :=
  match step (asking cmd a b) with
  | .next s => some (s.res, s.status)
  | .fault _ => none
  | .refused _ => none

-- R120
theorem test_fromBits_ignores_high_bits : response 0x00000801 0x149 0x0 = some (some 0x49, some 0) := by decide +kernel
-- 95_test_vectors.md section 2
theorem test_fromBits_s128 : response 0x00000C01 0x8000000000000000000000000000000000000000000000000000000000000001 0x0 = some (some 0x1, some 0) := by decide +kernel
-- 95_test_vectors.md section 2
theorem test_signBit_of_min : response 0x00000C02 0x80000000000000000000000000000000 0x0 = some (some 0x1, some 0) := by decide +kernel
-- 95_test_vectors.md section 2
theorem test_signBit_unsigned : response 0x00000002 0xFF 0x0 = some (some 0x0, some 0) := by decide +kernel
-- R122
theorem test_sign_of_min_is_all_ones : response 0x00000803 0x80 0x0 = some (some 0xFFFFFFFFFFFFFFFFFFFFFFFFFFFFFFFFFFFFFFFFFFFFFFFFFFFFFFFFFFFFFFFF, some 0) := by decide +kernel
-- 95_test_vectors.md section 2
theorem test_sign_unsigned_is_one : response 0x00000003 0xFF 0x0 = some (some 0x1, some 0) := by decide +kernel
-- R123
theorem test_intC_of_negative_is_raw_field : response 0x00000804 0xF0 0x0 = some (some 0x1, some 0) := by decide +kernel
-- 95_test_vectors.md section 2
theorem test_intC_u128 : response 0x00000404 0xFFFFFFFFFFFFFFFFFFFFFFFFFFFFFFFF 0x0 = some (some 0x3F, some 0) := by decide +kernel
-- R124
theorem test_fracC_s32 : response 0x00000A05 0x3243F6A9 0x0 = some (some 0x243F6A90, some 0) := by decide +kernel
-- 95_test_vectors.md section 2
theorem test_fracC_u8 : response 0x00000005 0xC9 0x0 = some (some 0x24, some 0) := by decide +kernel
-- R126
theorem test_ldMin_s16 : response 0x00000910 0x0 0x0 = some (some 0x8000, some 0) := by decide +kernel
-- R127
theorem test_ldMax_u8 : response 0x00000011 0x0 0x0 = some (some 0xFF, some 0) := by decide +kernel
-- R128
theorem test_ldGrain_s128 : response 0x00000C12 0x0 0x0 = some (some 0x1, some 0) := by decide +kernel
-- R131
theorem test_ldPi_s8_saturates : response 0x00000813 0x0 0x0 = some (some 0x7F, some 0) := by decide +kernel
-- 95_test_vectors.md section 2
theorem test_ldPi_s64 : response 0x00000B13 0x0 0x0 = some (some 0x1921FB54442D1847, some 0) := by decide +kernel
-- R132
theorem test_ldE_u8 : response 0x00000014 0x0 0x0 = some (some 0xAE, some 0) := by decide +kernel
-- R134
theorem test_ldMinF_s8 : response 0x00000815 0x0 0x0 = some (some 0xC000000000000000, some 0) := by decide +kernel
-- 95_test_vectors.md section 2
theorem test_ldMaxF_s64_rounds_up : response 0x00000B16 0x0 0x0 = some (some 0x4030000000000000, some 0) := by decide +kernel
-- 95_test_vectors.md section 3.1
theorem test_enc_carry_into_integer : response 0x00000820 0x3FEFC00000000000 0x0 = some (some 0x40, some 0) := by decide +kernel
-- 95_test_vectors.md section 3.1
theorem test_enc_negative_tie_away : response 0x00000820 0xBF80000000000000 0x0 = some (some 0xFF, some 0) := by decide +kernel
-- 95_test_vectors.md section 3.2
theorem test_dec_s8 : response 0x00000821 0x49 0x0 = some (some 0x3FF2400000000000, some 0) := by decide +kernel
-- 95_test_vectors.md section 3.2
theorem test_dec_s128_narrows : response 0x00000C21 0x48000000000000000000000000000000 0x0 = some (some 0x4030000000000000, some 0) := by decide +kernel
-- 95_test_vectors.md section 4
theorem test_conv_truncates_toward_zero : response 0x00008930 0xFF7F 0x0 = some (some 0xFF, some 0) := by decide +kernel
-- 95_test_vectors.md section 4
theorem test_conv_shift_is_seven : response 0x00001030 0x40 0x0 = some (some 0x2000, some 0) := by decide +kernel
-- R231
theorem test_neg_min : response 0x00000840 0x80 0x0 = some (some 0x7F, some 0) := by decide +kernel
-- 95_test_vectors.md section 5
theorem test_neg_unsigned : response 0x00000040 0x10 0x0 = some (some 0x0, some 0) := by decide +kernel
-- 95_test_vectors.md S4
theorem test_add_source_vector : response 0x00000841 0x20 0xF0 = some (some 0x10, some 0) := by decide +kernel
-- 95_test_vectors.md section 5
theorem test_add_saturates : response 0x00000841 0x7F 0x1 = some (some 0x7F, some 0) := by decide +kernel
-- 95_test_vectors.md section 5
theorem test_sub_zero_minus_min : response 0x00000842 0x0 0x80 = some (some 0x7F, some 0) := by decide +kernel
-- 95_test_vectors.md section 5
theorem test_sub_unsigned_underflow : response 0x00000042 0x1 0x2 = some (some 0x0, some 0) := by decide +kernel
-- R236
theorem test_mul_min_is_minus_max : response 0x00000843 0x80 0x20 = some (some 0xC1, some 0) := by decide +kernel
-- 95_test_vectors.md section 5
theorem test_mul_s128_wide_datapath : response 0x00000C43 0xC90FDAA22168C234C4C6628B80DC1CD 0xADF85458A2BB4A9AAFDC5620273D3CF = some (some 0x2228B0168BA8E93CC210AF345A194E03, some 0) := by decide +kernel
-- 95_test_vectors.md section 5
theorem test_equal_differs : response 0x00000844 0x10 0x11 = some (some 0x0, some 0) := by decide +kernel
-- 95_test_vectors.md section 5
theorem test_equal_same : response 0x00000844 0x10 0x10 = some (some 0x1, some 0) := by decide +kernel
-- R238
theorem test_compare_signed_order : response 0x00000845 0x80 0x7F = some (some 0xFFFFFFFFFFFFFFFFFFFFFFFFFFFFFFFFFFFFFFFFFFFFFFFFFFFFFFFFFFFFFFFF, some 0) := by decide +kernel
-- 95_test_vectors.md section 5
theorem test_compare_unsigned_order : response 0x00000045 0x80 0x7F = some (some 0x1, some 0) := by decide +kernel
-- R270
theorem test_wFrom_ignores_high_word : response 0x00000080 0x100000000000000000000000000000005 0x0 = some (some 0x5, some 0) := by decide +kernel
-- 95_test_vectors.md section 6
theorem test_wAdd_carries_into_hi : response 0x00000081 0xFFFFFFFFFFFFFFFFFFFFFFFFFFFFFFFF 0x1 = some (some 0x100000000000000000000000000000000, some 0) := by decide +kernel
-- 95_test_vectors.md section 6
theorem test_wAdd_saturates : response 0x00000081 0x8000000000000000000000000000000000000000000000000000000000000000 0x8000000000000000000000000000000000000000000000000000000000000000 = some (some 0xFFFFFFFFFFFFFFFFFFFFFFFFFFFFFFFFFFFFFFFFFFFFFFFFFFFFFFFFFFFFFFFF, some 0) := by decide +kernel
-- 95_test_vectors.md section 6
theorem test_wSub_borrows_from_hi : response 0x00000082 0x100000000000000000000000000000000 0x1 = some (some 0xFFFFFFFFFFFFFFFFFFFFFFFFFFFFFFFF, some 0) := by decide +kernel
-- R272
theorem test_wSub_underflow : response 0x00000082 0x1 0x2 = some (some 0x0, some 0) := by decide +kernel
-- 95_test_vectors.md section 6
theorem test_wShl_crosses_words : response 0x00000083 0x8000000000000000FFFFFFFFFFFFFFFF 0x40 = some (some 0x8000000000000000FFFFFFFFFFFFFFFF0000000000000000, some 0) := by decide +kernel
-- 95_test_vectors.md section 6
theorem test_wShl_by_256_faults : response 0x00000083 0x1 0x100 = some (none, some 3) := by decide +kernel
-- 95_test_vectors.md section 6
theorem test_wShr_crosses_words : response 0x00000084 0x100000000000000000000000000000001 0x1 = some (some 0x80000000000000000000000000000000, some 0) := by decide +kernel
-- 95_test_vectors.md section 6
theorem test_wShr_by_300_faults : response 0x00000084 0x1 0x12C = some (none, some 3) := by decide +kernel
-- R276
theorem test_wAnd : response 0x00000085 0xFFFFFFFFFFFFFFFFFFFFFFFFFFFFFFFFFFFFFFFFFFFFFFFFFFFFFFFFFFFFFFFF 0xF0 = some (some 0xF0, some 0) := by decide +kernel
-- R277
theorem test_wOr : response 0x00000086 0x8000000000000000000000000000000000000000000000000000000000000000 0x1 = some (some 0x8000000000000000000000000000000000000000000000000000000000000001, some 0) := by decide +kernel
-- R278
theorem test_wXor : response 0x00000087 0xFF 0xF = some (some 0xF0, some 0) := by decide +kernel
-- 95_test_vectors.md section 6
theorem test_wNot : response 0x00000088 0xFFFFFFFFFFFFFFFFFFFFFFFFFFFFFFFF 0x0 = some (some 0xFFFFFFFFFFFFFFFFFFFFFFFFFFFFFFFF00000000000000000000000000000000, some 0) := by decide +kernel
-- R281
theorem test_wMul_largest : response 0x00000089 0xFFFFFFFFFFFFFFFFFFFFFFFFFFFFFFFF 0xFFFFFFFFFFFFFFFFFFFFFFFFFFFFFFFF = some (some 0xFFFFFFFFFFFFFFFFFFFFFFFFFFFFFFFE00000000000000000000000000000001, some 0) := by decide +kernel
-- 95_test_vectors.md section 6
theorem test_wMul_ignores_high_word : response 0x00000089 0x100000000000000000000000000000003 0x5 = some (some 0xF, some 0) := by decide +kernel
-- 95_test_vectors.md section 6
theorem test_wCmp_unsigned : response 0x0000008A 0x8000000000000000000000000000000000000000000000000000000000000000 0xFFFFFFFFFFFFFFFFFFFFFFFFFFFFFFFF = some (some 0x1, some 0) := by decide +kernel
-- R282
theorem test_wCmp_below : response 0x0000008A 0x1 0x2 = some (some 0xFFFFFFFFFFFFFFFFFFFFFFFFFFFFFFFFFFFFFFFFFFFFFFFFFFFFFFFFFFFFFFFF, some 0) := by decide +kernel

-- 95_test_vectors.md section 3.1
theorem test_enc_nan_faults : response 0x00010220 0x7FC00000 0 = some (none, some 2) := by decide +kernel
-- 95_test_vectors.md section 7
theorem test_illegal_word_faults : response 0x00020841 5 7 = some (none, some 1) := by decide +kernel

/-! ## The host -/

-- R57, R313: a reader of RES stops after a fault, and after reset a reader of STATUS stops too
theorem test_reading_no_value_stops :
    State.reset.readStatus = .error .statusHoldsNoValue ∧
    (State.reset.raiseFault .nanInput).readRes = .error .resHoldsNoValue ∧
    (State.reset.raiseFault .nanInput).readStatus = .ok 2 := by decide

-- R95: a pseudo-instruction expands, and WIDEN refuses a narrowing
theorem test_pseudo_instructions :
    assembleMnemonic "NARROW.u32.u8" = some (.conv ⟨.w32, false⟩ ⟨.w8, false⟩) ∧
    assembleMnemonic "WIDEN.u32.u8" = none ∧
    assembleMnemonic "TOF32.s8" = some (.dec ⟨.w8, true⟩ .f32) := by decide +kernel

-- R94, R97: the text of a line
theorem test_line_text :
    assembleProgram ["LI k, 0x1F ; a value".toList, "; nothing".toList, "WSHL t, k, k".toList] =
      some [.li "k" 31, .command .wShl "t" ["k", "k"]] := by decide +kernel

-- R326: a faulted response leaves the destination unbound, also one that an earlier line bound, and ends the program
theorem test_fault_ends_program :
    let h := (HostState.start [.li "k" 256, .li "v" 1, .command .wShl "v" ["k", "k"],
      .command .wNot "w" ["k"]]).steps 4
    h.standing = .faultState 3 ∧ valueOf h.bindings "v" = none ∧ valueOf h.bindings "w" = none ∧
      valueOf h.bindings "k" = some 256 ∧ h.lines = [] := by decide +kernel

-- R41, R345: a request presented while another waits is answered after it (WNOT of 0, then LDGRAIN.s8)
theorem test_responses_in_presentation_order :
    outputs 2 ((asking 0x00000088 0 0).present ⟨0x00000812, 0, 0⟩) =
      [(some 0, some (BitVec.allOnes 256)), (some 0, some 1)] := by decide +kernel

/-! ## Witnesses: for every statement with hypotheses, a state and operands that meet all of them. -/

/-- A state with the given operand words. -/
def operands (a b : PortWord) : State :=
  { State.reset with a, b }

theorem witness_DecodeReadsEveryEncodedCommand : Instr.wellFormed (.conv ⟨.w128, false⟩ ⟨.w8, false⟩) = true := by
  decide

theorem witness_DecodedWordIsTheCommandsWord : decode 0x00004030 = .ok (.conv ⟨.w8, false⟩ ⟨.w128, false⟩) := by
  decide

theorem witness_IllegalCommandsCompleteWithIllegalCmd :
    (asking 0x00000541 1 2).pending = [⟨0x00000541, 1, 2⟩] ∧ legal 0x00000541 = false := by decide

/-- One word at each end of each range of R91, and one for each condition of R92 alone. -/
theorem witness_ReservedOpcodesAndFieldsAreIllegal :
    (asking 0x00000006 1 2).pending = [⟨0x00000006, 1, 2⟩] ∧
    [0x00, 0x06, 0x0F, 0x17, 0x1F, 0x22, 0x2F, 0x31, 0x3F, 0x46, 0x7F, 0x8B, 0xFF,
      0x00000541, 0x00000720, 0x00005030, 0x00007130, 0x00001830, 0x00001041, 0x00008841, 0x00010841, 0x00018030,
      0x00000181, 0x00000889, 0x00020841, 0x80000841].all (fun w => !legal w) = true := by decide +kernel

theorem witness_StepRunsTheDecodedCommand :
    (asking 0x00000C43 1 2).pending = [⟨0x00000C43, 1, 2⟩] ∧ decode 0x00000C43 = .ok (.mul ⟨.w128, true⟩) := by decide

theorem witness_IdleStepLeavesNoValue : (State.reset.complete 5).pending = [] := by decide

theorem witness_RequestsAreIdempotent :
    ((asking 0x00000841 1 2).present ⟨0x00000841, 1, 2⟩).pending =
      [⟨0x00000841, 1, 2⟩, ⟨0x00000841, 1, 2⟩] := by decide

theorem witness_ResponseDependsOnItsRequestAlone :
    (asking 0x00000841 1 2).pending = [⟨0x00000841, 1, 2⟩] ∧
    ((asking 0x00000841 1 2).complete 9).pending = [⟨0x00000841, 1, 2⟩] := by decide

theorem witness_StepsKeepTheOutputPortsInAgreement : ∃ t, step (asking 0x00000083 1 256) = .next t :=
  ⟨_, rfl⟩

theorem witness_CommandsChangeOnlyTheOutputPorts :
    ∃ t, exec (.enc ⟨.w8, true⟩ .f32) (operands 0x7FC00000 0) = .next t := by
  obtain ⟨v, h⟩ | ⟨c, h⟩ := exec_cases (.enc ⟨.w8, true⟩ .f32) (operands 0x7FC00000 0)
  · exact ⟨_, h⟩
  · exact ⟨_, h⟩

theorem witness_PiAndEAreNearest : (Width.w64 ≠ .w128) ∧ (⟨.w128, true⟩ : CType).width = .w128 := by decide

theorem witness_EncodeOfNaNFaults :
    ((operands 0xFFF0000000000001 0).a.toNat / 2 ^ 52 % 2 ^ 11 = 2 ^ 11 - 1 ∧
      (operands 0xFFF0000000000001 0).a.toNat % 2 ^ 52 ≠ 0) ∧
    ((operands 0x7FC00000 0).a.toNat / 2 ^ 23 % 2 ^ 8 = 2 ^ 8 - 1 ∧
      (operands 0x7FC00000 0).a.toNat % 2 ^ 23 ≠ 0) := by decide +kernel

theorem witness_EncodeOfInfinityGivesTheBounds :
    (operands 0x7FF0000000000000 0).a.setWidth 64 = (0x7FF0000000000000 : BitVec 64) ∧
    (operands 0xFFF0000000000000 0).a.setWidth 64 = (0xFFF0000000000000 : BitVec 64) ∧
    (operands 0x7F800000 0).a.setWidth 32 = (0x7F800000 : BitVec 32) ∧
    (operands 0xFF800000 0).a.setWidth 32 = (0xFF800000 : BitVec 32) := by decide +kernel

theorem witness_EncodeFollowsTheRationalRule :
    isNaN .f64 (0x7FF8000000000000 : BitVec 64) = true ∧ isInf .f64 (0xFFF0000000000000 : BitVec 64) = true ∧
    Spec.isFinite .f64 (0x3FE0000000000000 : BitVec 64) := by
  unfold Spec.isFinite
  decide +kernel

theorem witness_EncodeErrorIsBoundedByItsTwoRoundings :
    Spec.isFinite .f32 ((operands 0x40490FDB 0).a.setWidth FloatFmt.f32.bits) := by
  unfold Spec.isFinite
  decide +kernel

theorem witness_EncodeOfNegativeOrSubnormalGivesZero :
    floatExp .f64 ((operands 1 0).a.setWidth FloatFmt.f64.bits) = 0 ∧
    Spec.isFinite .f64 ((operands 0xBFF0000000000000 0).a.setWidth FloatFmt.f64.bits) ∧
    Spec.floatValue .f64 ((operands 0xBFF0000000000000 0).a.setWidth FloatFmt.f64.bits) < 0 := by
  unfold Spec.isFinite
  decide +kernel

theorem witness_EncodeWidensBinary32Exactly : Spec.isFinite .f32 ((operands 0x00000001 0).a.setWidth 32) := by
  unfold Spec.isFinite
  decide +kernel

theorem witness_EncodeRoundsTwice :
    (operands 0x3C2F000000000000 0).a.setWidth 64 = (0x3C2F000000000000 : BitVec 64) := by decide +kernel

/-- The zero clause, and a tie: 2^24 + 1 grains of s32 lie midway between two binary32 values. -/
theorem witness_DecodeRoundsToNearestEven :
    Spec.value ⟨.w8, true⟩ ((operands 0x100 0).a.setWidth (CType.bits ⟨.w8, true⟩)) = 0 ∧
    Spec.isFinite .f32 (0x3D800001 : BitVec 32) ∧
    Spec.floatValue .f32 (0x3D800001 : BitVec 32) ≠ Spec.floatValue .f32 (0x3D800000 : BitVec 32) ∧
    |Spec.floatValue .f32 (0x3D800001 : BitVec 32) - Spec.value ⟨.w32, true⟩ (0x01000001 : BitVec 32)| =
      |Spec.floatValue .f32 (0x3D800000 : BitVec 32) - Spec.value ⟨.w32, true⟩ (0x01000001 : BitVec 32)| := by
  unfold Spec.isFinite
  decide +kernel

theorem witness_DecodeIsExactForNarrowTypes :
    (⟨.w32, true⟩ : CType).bits ≤ 32 ∧ (⟨.w16, false⟩ : CType).bits ≤ 16 := by decide

theorem witness_DecodeOfWideTypesNarrowsFirst :
    16 ≤ Spec.value ⟨.w128, true⟩ ((operands 0x40000000000000000000000000000000 0).a.setWidth 128) ∧
    Spec.value ⟨.w128, true⟩ ((operands 0xC0000000000000000000000000000000 0).a.setWidth 128) ≤ -16 ∧
    32 ≤ Spec.value ⟨.w128, false⟩ ((operands 0x80000000000000000000000000000000 0).a.setWidth 128) := by
  decide +kernel

theorem witness_RoundTripHoldsForNarrowTypesOnly :
    (⟨.w32, false⟩ : CType).bits ≤ 32 ∧ 64 ≤ (⟨.w64, true⟩ : CType).bits ∧
    (operands 0x0800000000000001 0).a.setWidth 64 = (0x0800000000000001 : BitVec 64) ∧
    (operands 0x3FF0000000000000 0).a.setWidth 64 = (0x3FF0000000000000 : BitVec 64) := by decide

theorem witness_ConvertMapsBoundsToBounds :
    (operands 0x80 0).a.setWidth (CType.bits ⟨.w8, true⟩) = minPattern ⟨.w8, true⟩ ∧
    (operands 0x7F 0).a.setWidth (CType.bits ⟨.w8, true⟩) = maxPattern ⟨.w8, true⟩ ∧
    (⟨.w8, true⟩ : CType).signed = (⟨.w16, true⟩ : CType).signed := by decide +kernel

theorem witness_ConvertPreservesValues :
    (⟨.w8, true⟩ : CType).bits < (⟨.w16, true⟩ : CType).bits ∧
    (0xF0 : (⟨.w8, true⟩ : CType).Pattern) ≠ minPattern ⟨.w8, true⟩ ∧ (0xF0 : (⟨.w8, true⟩ : CType).Pattern) ≠ maxPattern ⟨.w8, true⟩ ∧
    (0xFF7F : (⟨.w16, true⟩ : CType).Pattern) ≠ minPattern ⟨.w16, true⟩ ∧ (0xFF7F : (⟨.w16, true⟩ : CType).Pattern) ≠ maxPattern ⟨.w16, true⟩ := by
  decide +kernel

theorem witness_NegateSaturates :
    (operands 0x80 0).a.setWidth (CType.bits ⟨.w8, true⟩) = minPattern ⟨.w8, true⟩ ∧
    (operands 0x7F 0).a.setWidth (CType.bits ⟨.w8, true⟩) ≠ minPattern ⟨.w8, true⟩ := by decide +kernel

theorem witness_AddAndMultiplyCommute : (operands 5 7).a = (operands 7 5).b ∧ (operands 5 7).b = (operands 7 5).a := by
  decide

theorem witness_NegateUndoesItselfExceptAtMin :
    (⟨.w8, true⟩ : CType).signed = true ∧ (0x81 : (⟨.w8, true⟩ : CType).Pattern) ≠ minPattern ⟨.w8, true⟩ := by decide +kernel

/-- 1.0 × 1.0 for the first clause, -1.5 × 1.5 for the second. -/
theorem witness_MultiplyOfNegatedOperand :
    ((0x40 : (⟨.w8, true⟩ : CType).Pattern) ≠ minPattern ⟨.w8, true⟩ ∧
      mulMagnitude ⟨.w8, true⟩ (0x40 : (⟨.w8, true⟩ : CType).Pattern) * mulMagnitude ⟨.w8, true⟩ (0x40 : (⟨.w8, true⟩ : CType).Pattern) / 2 ^ 6 ≤
        maxMag ⟨.w8, true⟩) ∧
    ((0xA0 : (⟨.w8, true⟩ : CType).Pattern) ≠ minPattern ⟨.w8, true⟩ ∧
      maxMag ⟨.w8, true⟩ <
        mulMagnitude ⟨.w8, true⟩ (0xA0 : (⟨.w8, true⟩ : CType).Pattern) * mulMagnitude ⟨.w8, true⟩ (0x60 : (⟨.w8, true⟩ : CType).Pattern) / 2 ^ 6 ∧
      (intOf ⟨.w8, true⟩ (0xA0 : (⟨.w8, true⟩ : CType).Pattern) < 0 ↔ 0 < intOf ⟨.w8, true⟩ (0x60 : (⟨.w8, true⟩ : CType).Pattern))) := by decide +kernel

/-- Both sides of the boundary at 256. -/
theorem witness_WideShiftsDivideOrFault :
    (operands 1 255).b.toNat < 256 ∧ 256 ≤ (operands 1 256).b.toNat := by decide

theorem witness_WideShiftRightUndoesShiftLeft :
    (operands 1 255).b.toNat < 256 ∧ (operands 1 255).a.toNat < 2 ^ (256 - (operands 1 255).b.toNat) := by decide +kernel

end Sys2Proof.Tests
end

section
/-! Requests and responses: what the ports hold after a step, how a response depends on its request, and the order of
the responses to waiting requests (10_state.md, 60_exceptions.md, 70_reset_and_hazards.md). -/

namespace Sys2Proof.Machine

/-! ## The output ports agree -/

@[simp] theorem State.portsAgree_complete (s : State) (v : PortWord) : (s.complete v).portsAgree = true := rfl

@[simp] theorem State.portsAgree_raiseFault (s : State) (c : StatusFault) : (s.raiseFault c).portsAgree = true := by
  cases c <;> rfl

@[simp] theorem State.portsAgree_idle (s : State) : s.idle.portsAgree = true := rfl

@[simp] theorem State.portsAgree_reset : State.reset.portsAgree = true := rfl

/-- Settles O13: a step idles, completes a request or faults, and each of the three writes both output ports. -/
theorem stepsKeepTheOutputPortsInAgreement : Obligations.StepsKeepTheOutputPortsInAgreement := by
  intro s t ht
  obtain ⟨-, h⟩ | ⟨r, rest, -, ⟨v, h⟩ | ⟨c, h⟩⟩ := step_cases s <;> cases h.symm.trans ht
  · exact s.portsAgree_idle
  · exact (s.sample r rest).portsAgree_complete v
  · exact (s.sample r rest).portsAgree_raiseFault c

/-! ## A response is a function of its request -/

/-- The response on the output ports: a status code, and a result or none; nothing else changes (R40, R41). -/
def State.respond (s : State) (code : StatusWord) (res : Option PortWord) : State :=
  { s with res := res, status := some code }

@[simp] theorem State.respond_status (s : State) (code : StatusWord) (res : Option PortWord) :
    (s.respond code res).status = some code := rfl

@[simp] theorem State.respond_res (s : State) (code : StatusWord) (res : Option PortWord) :
    (s.respond code res).res = res := rfl

@[simp] theorem State.respond_pending (s : State) (code : StatusWord) (res : Option PortWord) :
    (s.respond code res).pending = s.pending := rfl

@[simp] theorem State.respond_output (s : State) (code : StatusWord) (res : Option PortWord) :
    (s.respond code res).output = (some code, res) := rfl

/-- A command reads the operand words alone: two states with the same words on A and B get the same response,
whatever else they hold (R41, R66). -/
theorem exec_congr (i : Instr) {s u : State} (ha : s.a = u.a) (hb : s.b = u.b) :
    ∃ code res, exec i s = .next (s.respond code res) ∧ exec i u = .next (u.respond code res) := by
  obtain ⟨cmd, a, b, r, st, pending⟩ := s
  obtain ⟨cmd', a', b', r', st', pending'⟩ := u
  cases ha
  cases hb
  cases i
  case enc t fmt =>
    by_cases hnan : isNaN fmt (a.setWidth fmt.bits) = true
    · exact ⟨_, _, if_pos hnan, if_pos hnan⟩
    · exact ⟨_, _, if_neg hnan, if_neg hnan⟩
  case wShl | wShr =>
    by_cases hrange : Config.wideBits ≤ b.toNat
    · exact ⟨_, _, if_pos hrange, if_pos hrange⟩
    · exact ⟨_, _, if_neg hrange, if_neg hrange⟩
  all_goals exact ⟨_, _, rfl, rfl⟩

/-- An answer depends on the three input ports alone, for a legal word and for an illegal one (R41, R89). -/
theorem answer_congr {s u : State} (hcmd : s.cmd = u.cmd) (ha : s.a = u.a) (hb : s.b = u.b) :
    ∃ code res, answer s = .next (s.respond code res) ∧ answer u = .next (u.respond code res) := by
  cases hdec : decode u.cmd with
  | ok i =>
    rw [answer_of_decode hdec, answer_of_decode (hcmd ▸ hdec)]
    exact exec_congr i ha hb
  | error e =>
    rw [answer_of_illegal hdec, answer_of_illegal (hcmd ▸ hdec)]
    exact ⟨_, _, rfl, rfl⟩

/-- Two states with the same oldest request step to the same response, each keeping its own later requests. -/
theorem step_congr {s u : State} {r : Request} {rest rest' : List Request}
    (hs : s.pending = r :: rest) (hu : u.pending = r :: rest') :
    ∃ code res, step s = .next ((s.sample r rest).respond code res) ∧
      step u = .next ((u.sample r rest').respond code res) := by
  rw [step_of_pending hs, step_of_pending hu]
  exact answer_congr rfl rfl rfl

/-- Settles O11: the two steps give one response, and sampling leaves the later requests. -/
theorem responseDependsOnItsRequestAlone : Obligations.ResponseDependsOnItsRequestAlone := by
  intro s s' r rest rest' hs hs'
  obtain ⟨code, res, h, h'⟩ := step_congr hs hs'
  exact ⟨_, _, h, h', by simp⟩

/-! ## Runs that answer every waiting request -/

theorem outputs_succ_of_step {s t : State} (n : Nat) (h : step s = .next t) :
    outputs (n + 1) s = t.output :: outputs n t := by
  simp [outputs, h]

theorem steps_succ_of_step {s t : State} (n : Nat) (h : step s = .next t) : steps (n + 1) s = steps n t := by
  simp [steps, h]

/-- Presenting a list of requests puts them, in their order, behind those that wait (R345). -/
theorem pending_foldl_present (l : List Request) (s : State) :
    (l.foldl State.present s).pending = s.pending ++ l := by
  induction l generalizing s with
  | nil => simp
  | cons r l ih => simp [ih]

/-- A step answers the oldest waiting request as a block just reset answers it alone, and takes it off the list. -/
theorem step_gives_responseTo {s : State} {r : Request} {rest : List Request} (hs : s.pending = r :: rest) :
    ∃ t code res, step s = .next t ∧ t.pending = rest ∧ t.output = (some code, res) ∧
      responseTo r = [(some code, res)] := by
  have hreset : (State.reset.present r).pending = [r] := rfl
  obtain ⟨code, res, h, h'⟩ := step_congr hs hreset
  exact ⟨_, code, res, h, by simp, by simp, outputs_succ_of_step 0 h'⟩

/-- As many steps as requests wait give the responses of those requests in their order, and leave none waiting. -/
theorem run_answers_pending (l : List Request) {s : State} (hs : s.pending = l) :
    outputs l.length s = l.flatMap responseTo ∧ ∃ t, steps l.length s = .next t ∧ t.pending = [] := by
  induction l generalizing s with
  | nil => exact ⟨rfl, s, rfl, hs⟩
  | cons r rest ih =>
    obtain ⟨t, code, res, hstep, ht, houtput, hresp⟩ := step_gives_responseTo hs
    obtain ⟨houtputs, hsteps⟩ := ih ht
    constructor
    · rw [List.length_cons, outputs_succ_of_step _ hstep, houtput, houtputs, List.flatMap_cons, hresp,
        List.singleton_append]
    · rwa [List.length_cons, steps_succ_of_step _ hstep]

/-- A request presented to a block just reset has one response, with a status (R41). -/
theorem responseTo_eq_singleton (r : Request) : ∃ code res, responseTo r = [(some code, res)] := by
  have hreset : (State.reset.present r).pending = [r] := rfl
  obtain ⟨-, code, res, -, -, -, hresp⟩ := step_gives_responseTo hreset
  exact ⟨code, res, hresp⟩

/-- Settles O9: the presented requests stand behind the waiting ones, and a run answers the whole list in its order. -/
theorem responsesComeInRequestOrder : Obligations.ResponsesComeInRequestOrder := by
  refine ⟨responseTo_eq_singleton, fun s l => ?_⟩
  have h := run_answers_pending (s.pending ++ l) (pending_foldl_present l s)
  rwa [List.length_append, List.flatMap_append] at h

/-- Settles O12: the step that idles had no request to take, and the step that answers takes the oldest. -/
theorem everyStepAnswers : Obligations.EveryStepAnswers := by
  intro s
  cases hs : s.pending with
  | nil => exact ⟨_, step_of_idle hs, hs⟩
  | cons r rest =>
    obtain ⟨t, -, -, hstep, ht, -, -⟩ := step_gives_responseTo hs
    exact ⟨t, hstep, ht⟩

/-! ## One command, and reset -/

/-- Settles O7: the step answers the sampled request, whose word is legal. -/
theorem stepRunsTheDecodedCommand : Obligations.StepRunsTheDecodedCommand := by
  intro s r rest i hs hdec
  calc step s = answer (s.sample r rest) := step_of_pending hs
    _ = exec i (s.sample r rest) := answer_of_decode hdec

/-- Settles O15: to complete and to fault are to write RES and STATUS. -/
theorem commandsChangeOnlyTheOutputPorts : Obligations.CommandsChangeOnlyTheOutputPorts := by
  intro i s t ht
  obtain ⟨v, h⟩ | ⟨c, h⟩ := exec_cases i s <;> cases h.symm.trans ht
  · simp
  · simp

/-- Settles O14: neither output port holds a value after reset. -/
theorem outputPortsAgreeAfterReset : Obligations.OutputPortsAgreeAfterReset :=
  State.portsAgree_reset

theorem State.readRes_of_none {s : State} (h : s.res = none) : s.readRes = .error .resHoldsNoValue := by
  simp [State.readRes, h]

theorem State.readStatus_of_none {s : State} (h : s.status = none) : s.readStatus = .error .statusHoldsNoValue := by
  simp [State.readStatus, h]

/-- Settles O16: both ports are reset to no value, and a read of no value stops. -/
theorem resetLeavesNoValueOnTheOutputPorts : Obligations.ResetLeavesNoValueOnTheOutputPorts :=
  ⟨rfl, rfl, State.readRes_of_none rfl, State.readStatus_of_none rfl, rfl⟩

end Sys2Proof.Machine
end

section
/-! Values of patterns: the value of R47 is the integer reading over a positive power of two (10_state.md R47, R48). -/

namespace Sys2Proof.Machine

theorem intOf_zero (t : CType) : intOf t 0 = 0 := by
  unfold intOf
  split
  · exact BitVec.toInt_zero
  · simp

theorem intOf_inj {t : CType} {a b : t.Pattern} : intOf t a = intOf t b ↔ a = b :=
  ⟨intOf_injective, congrArg (intOf t)⟩

/-- Patterns have one value exactly when they have one integer reading, the denominator being the type's. -/
theorem value_eq_value_iff {t : CType} {a b : t.Pattern} : Spec.value t a = Spec.value t b ↔ intOf t a = intOf t b := by
  have hden : (2 : ℚ) ^ t.fracBits ≠ 0 := by positivity
  rw [Spec.value, Spec.value, div_left_inj' hden, Int.cast_inj]

theorem value_zero (t : CType) : Spec.value t 0 = 0 := by
  rw [Spec.value, intOf_zero, Int.cast_zero, zero_div]

/-- Settles O42: the integer reading is injective, and that of the zero pattern is 0. -/
theorem patternsHaveDistinctValues : Obligations.PatternsHaveDistinctValues := by
  intro t a b
  have hinj (c d : t.Pattern) : Spec.value t c = Spec.value t d ↔ c = d := value_eq_value_iff.trans intOf_inj
  exact ⟨hinj a b, by rw [← value_zero t, hinj]⟩

end Sys2Proof.Machine
end

section
/-! Idempotent requests: a request has one response, the same from every state of the block (20_memory.md R65). -/

namespace Sys2Proof.Machine

theorem State.respond_inj {s : State} {code code' : StatusWord} {res res' : Option PortWord} :
    s.respond code res = s.respond code' res' ↔ code = code' ∧ res = res' := by
  refine ⟨fun h => ⟨?_, congrArg State.res h⟩, fun ⟨hcode, hres⟩ => by rw [hcode, hres]⟩
  exact Option.some.inj (congrArg State.status h)

/-- One response serves a request in every state in which it is the oldest: `step_congr` compares each such state
with a block just reset, whose step fixes the response. -/
theorem exists_response (r : Request) :
    ∃ code res, ∀ {s : State} {rest : List Request}, s.pending = r :: rest →
      step s = .next ((s.sample r rest).respond code res) := by
  have hreset : (State.reset.present r).pending = [r] := rfl
  obtain ⟨code, res, hfixed, -⟩ := step_congr hreset hreset
  refine ⟨code, res, fun hs => ?_⟩
  obtain ⟨code', res', hstep, hfixed'⟩ := step_congr hs hreset
  obtain ⟨rfl, rfl⟩ := State.respond_inj.mp (Host.Outcome.next.inj (hfixed.symm.trans hfixed'))
  exact hstep

/-- Settles O10: the second step answers the same request, so it writes the ports with what they already hold. -/
theorem requestsAreIdempotent : Obligations.RequestsAreIdempotent := by
  intro s r rest hs
  obtain ⟨code, res, hstep⟩ := exists_response r
  have hwaiting : ((s.sample r (r :: rest)).respond code res).pending = r :: rest := rfl
  exact ⟨code, res, hstep hs, hstep hwaiting⟩

end Sys2Proof.Machine
end

section
/-! The decoder and the encoder: the words that decode are the words of the well-formed commands, one word each
(30_encoding.md R80 to R93). `opcodeRow` splits the decoder along the rows of R87 once; every law about all words
follows that split. -/

namespace Sys2Proof

/-! ## Words and fields -/

theorem encode_eq_iff {i : Instr} {w : CmdWord} : encode i = w ↔ i.fields = fieldsOf w := by
  constructor
  · rintro rfl
    exact (fieldsOf_packFields i.fields).symm
  · intro h
    rw [encode, h, packFields_fieldsOf]

theorem Instr.fields_rsv (i : Instr) : i.fields.rsv = 0 := by
  cases i <;> rfl

theorem Fields.targetZero_iff {f : Fields} : f.targetZero = true ↔ f.wb = 0 ∧ f.sb = false := by
  simp [Fields.targetZero]

theorem certumType_eq_ok_iff {c : BitVec 3} {b : Bool} {t : CType} :
    certumType c b = .ok t ↔ t.width.code = c ∧ t.signed = b := by
  constructor
  · intro h
    unfold certumType at h
    split at h
    · next hw =>
      cases h
      exact ⟨widthOfCode_eq_ok hw, rfl⟩
    · cases h
  · rintro ⟨rfl, rfl⟩
    exact certumType_code t

/-- The width codes 0 to 4 stand for a type with either signedness, and 5 to 7 for none (R82). -/
theorem exists_certumType_eq_ok_iff (c : BitVec 3) (b : Bool) : (∃ t, certumType c b = .ok t) ↔ c.toNat ≤ 4 := by
  have hwidth : ∀ c : BitVec 3, c.toNat ≤ 4 ↔ (widthOfCode c).isOk = true := by decide
  rw [hwidth, certumType]
  cases widthOfCode c <;> simp [Except.isOk, Except.toBool]

/-! ## The rows of R87: when the decoder of a row accepts, and which fields are a command's of that row -/

section
variable {f : Fields} {i : Instr}

theorem decodeTyped_eq_ok_iff {mk : CType → Instr} :
    decodeTyped f mk = .ok i ↔
      f.targetZero = true ∧ f.fmt = false ∧ ∃ t, certumType f.wa f.sa = .ok t ∧ mk t = i := by
  unfold decodeTyped
  split_ifs with htarget hfmt
  · simp [htarget]
  · simp [hfmt]
  · cases certumType f.wa f.sa <;> simp [htarget, hfmt]

theorem decodeTypedFmt_eq_ok_iff {mk : CType → FloatFmt → Instr} :
    decodeTypedFmt f mk = .ok i ↔
      f.targetZero = true ∧ ∃ t, certumType f.wa f.sa = .ok t ∧ mk t (floatFmtOf f.fmt) = i := by
  unfold decodeTypedFmt
  split_ifs with htarget
  · simp [htarget]
  · cases certumType f.wa f.sa <;> simp [htarget]

theorem decodeConv_eq_ok_iff :
    decodeConv f = .ok i ↔
      f.fmt = false ∧ f.sb = f.sa ∧
        ∃ ta tb, certumType f.wa f.sa = .ok ta ∧ certumType f.wb f.sb = .ok tb ∧ .conv ta tb = i := by
  unfold decodeConv
  split_ifs with hfmt hsb
  · simp [hfmt]
  · simp [hsb]
  · cases certumType f.wa f.sa <;> cases certumType f.wb f.sb <;> simp_all

theorem decodeWide_eq_ok_iff {j : Instr} :
    decodeWide f j = .ok i ↔ (f.wa = 0 ∧ f.sa = false) ∧ f.targetZero = true ∧ f.fmt = false ∧ j = i := by
  unfold decodeWide
  split_ifs with htype htarget hfmt
  · rcases htype with hwa | hsa
    · simp only [hwa, false_and]
    · simp [hsa]
  · simp [htarget]
  · simp [hfmt]
  · simp_all

theorem decodeTyped_typedFields (opc : BitVec 8) (t : CType) (mk : CType → Instr) :
    decodeTyped (typedFields opc t) mk = .ok (mk t) :=
  decodeTyped_eq_ok_iff.mpr ⟨rfl, rfl, t, certumType_code t, rfl⟩

theorem decodeTypedFmt_typedFmtFields (opc : BitVec 8) (t : CType) (fmt : FloatFmt)
    (mk : CType → FloatFmt → Instr) :
    decodeTypedFmt (typedFmtFields opc t fmt) mk = .ok (mk t fmt) :=
  decodeTypedFmt_eq_ok_iff.mpr ⟨rfl, t, certumType_code t, congrArg (mk t) (floatFmtOf_bit fmt)⟩

theorem decodeConv_convFields {ta tb : CType} (h : ta.signed = tb.signed) :
    decodeConv (convFields ta tb) = .ok (.conv ta tb) :=
  decodeConv_eq_ok_iff.mpr ⟨rfl, h.symm, ta, tb, certumType_code ta, certumType_code tb, rfl⟩

theorem typedFields_eq_iff {t : CType} (hrsv : f.rsv = 0) :
    typedFields f.opc t = f ↔ f.targetZero = true ∧ f.fmt = false ∧ certumType f.wa f.sa = .ok t := by
  obtain ⟨opc, wa, sa, wb, sb, fmt, rsv⟩ := f
  cases hrsv
  rw [Fields.targetZero_iff, certumType_eq_ok_iff]
  simp only [typedFields, Fields.mk.injEq]
  tauto

theorem typedFmtFields_eq_iff {t : CType} (hrsv : f.rsv = 0) :
    typedFmtFields f.opc t (floatFmtOf f.fmt) = f ↔ f.targetZero = true ∧ certumType f.wa f.sa = .ok t := by
  obtain ⟨opc, wa, sa, wb, sb, fmt, rsv⟩ := f
  cases hrsv
  rw [Fields.targetZero_iff, certumType_eq_ok_iff]
  simp only [typedFmtFields, bit_floatFmtOf, Fields.mk.injEq]
  tauto

theorem convFields_eq_iff {ta tb : CType} (hopc : f.opc = 0x30) (hrsv : f.rsv = 0) :
    convFields ta tb = f ↔ f.fmt = false ∧ certumType f.wa f.sa = .ok ta ∧ certumType f.wb f.sb = .ok tb := by
  obtain ⟨opc, wa, sa, wb, sb, fmt, rsv⟩ := f
  cases hrsv
  cases hopc
  rw [certumType_eq_ok_iff, certumType_eq_ok_iff]
  simp only [convFields, Fields.mk.injEq]
  tauto

theorem wideFields_eq_iff (hrsv : f.rsv = 0) :
    wideFields f.opc = f ↔ (f.wa = 0 ∧ f.sa = false) ∧ f.targetZero = true ∧ f.fmt = false := by
  obtain ⟨opc, wa, sa, wb, sb, fmt, rsv⟩ := f
  cases hrsv
  rw [Fields.targetZero_iff]
  simp only [wideFields, Fields.mk.injEq]
  tauto

end

/-- The OPC values of the first row of R87. -/
abbrev typedOpc (n : Nat) : Prop :=
  (0x01 ≤ n ∧ n ≤ 0x05) ∨ (0x10 ≤ n ∧ n ≤ 0x16) ∨ (0x40 ≤ n ∧ n ≤ 0x45)

/-- The row of R87 that the OPC of a word selects, with the commands of R88 that the OPC stands for and the decoder of
the other fields; the last case is an OPC that R88 does not list (R91). -/
inductive OpcodeRow (f : Fields) : Prop
  | typed (mk : CType → Instr) (hopc : typedOpc f.opc.toNat)
      (hmk : ∀ t, (mk t).wellFormed = true ∧ (mk t).fields = typedFields f.opc t)
      (hdec : decodeFields f = decodeTyped f mk)
  | typedFmt (mk : CType → FloatFmt → Instr) (hopc : f.opc.toNat = 0x20 ∨ f.opc.toNat = 0x21)
      (hmk : ∀ t fmt, (mk t fmt).wellFormed = true ∧ (mk t fmt).fields = typedFmtFields f.opc t fmt)
      (hdec : decodeFields f = decodeTypedFmt f mk)
  | conv (hopc : f.opc = 0x30) (hdec : decodeFields f = decodeConv f)
  | wide (i : Instr) (hopc : 0x80 ≤ f.opc.toNat ∧ f.opc.toNat ≤ 0x8A)
      (hi : i.wellFormed = true ∧ i.fields = wideFields f.opc) (hdec : decodeFields f = decodeWide f i)
  | reserved (htyped : ¬ typedOpc f.opc.toNat) (hfmt : ¬ (f.opc.toNat = 0x20 ∨ f.opc.toNat = 0x21))
      (hconv : f.opc.toNat ≠ 0x30) (hwide : ¬ (0x80 ≤ f.opc.toNat ∧ f.opc.toNat ≤ 0x8A))
      (hdec : decodeFields f = .error .reservedOpcode)

/-- With RSV zero, every word is in one row of R87 or has a reserved OPC. For each OPC of a row the arm of
`decodeFields` gives the command: it is read off `hdec`. -/
theorem opcodeRow {f : Fields} (hrsv : f.rsv = 0) : OpcodeRow f := by
  have hdec := decodeFields.eq_def f
  rw [if_neg (not_not.mpr hrsv)] at hdec
  have hopc : f.opc = BitVec.ofNat 8 f.opc.toNat := by simp
  by_cases htyped : typedOpc f.opc.toNat
  · rcases id htyped with ⟨hlo, hhi⟩ | ⟨hlo, hhi⟩ | ⟨hlo, hhi⟩ <;>
      interval_cases hn : f.opc.toNat <;>
      exact .typed _ (hn ▸ htyped) (fun t => ⟨rfl, hopc ▸ rfl⟩) hdec
  by_cases hfmt : f.opc.toNat = 0x20 ∨ f.opc.toNat = 0x21
  · rcases id hfmt with hn | hn <;>
      rw [hn] at hdec hopc <;>
      exact .typedFmt _ hfmt (fun t fmt => ⟨rfl, hopc ▸ rfl⟩) hdec
  by_cases hconv : f.opc.toNat = 0x30
  · rw [hconv] at hdec hopc
    exact .conv hopc hdec
  by_cases hwide : 0x80 ≤ f.opc.toNat ∧ f.opc.toNat ≤ 0x8A
  · obtain ⟨hlo, hhi⟩ := id hwide
    interval_cases hn : f.opc.toNat <;>
      exact .wide _ (hn ▸ hwide) ⟨rfl, hopc ▸ rfl⟩ hdec
  · refine .reserved htyped hfmt hconv hwide ?_
    split at hdec
    -- the last arm, for the OPCs of no other arm
    case h_33 => exact hdec
    all_goals omega

/-! ## Decoding and encoding undo each other -/

theorem decodeFields_of_rsv_ne_zero {f : Fields} (hrsv : f.rsv ≠ 0) : decodeFields f = .error .reservedBits :=
  if_pos hrsv

theorem decodeFields_fields {i : Instr} (h : i.wellFormed = true) : decodeFields i.fields = .ok i := by
  cases i
  case conv ta tb => exact decodeConv_convFields (eq_of_beq h)
  case enc t fmt | dec t fmt => exact decodeTypedFmt_typedFmtFields _ t fmt _
  case wFrom | wAdd | wSub | wShl | wShr | wAnd | wOr | wXor | wNot | wMul | wCmp => rfl
  all_goals exact decodeTyped_typedFields _ _ _

theorem wellFormed_and_fields_of_decodeFields {f : Fields} {i : Instr} (h : decodeFields f = .ok i) :
    i.wellFormed = true ∧ i.fields = f := by
  by_cases hrsv : f.rsv = 0
  case neg => cases (decodeFields_of_rsv_ne_zero hrsv).symm.trans h
  cases opcodeRow hrsv with
  | typed mk _ hmk hdec =>
    obtain ⟨htarget, hfmt, t, ht, rfl⟩ := decodeTyped_eq_ok_iff.mp (hdec.symm.trans h)
    obtain ⟨hwf, hfields⟩ := hmk t
    exact ⟨hwf, hfields.trans ((typedFields_eq_iff hrsv).mpr ⟨htarget, hfmt, ht⟩)⟩
  | typedFmt mk _ hmk hdec =>
    obtain ⟨htarget, t, ht, rfl⟩ := decodeTypedFmt_eq_ok_iff.mp (hdec.symm.trans h)
    obtain ⟨hwf, hfields⟩ := hmk t (floatFmtOf f.fmt)
    exact ⟨hwf, hfields.trans ((typedFmtFields_eq_iff hrsv).mpr ⟨htarget, ht⟩)⟩
  | conv hopc hdec =>
    obtain ⟨hfmt, hsb, ta, tb, hta, htb, rfl⟩ := decodeConv_eq_ok_iff.mp (hdec.symm.trans h)
    obtain ⟨-, hsa⟩ := certumType_eq_ok_iff.mp hta
    obtain ⟨-, hsb'⟩ := certumType_eq_ok_iff.mp htb
    exact ⟨beq_iff_eq.mpr (by rw [hsa, hsb', hsb]), (convFields_eq_iff hopc hrsv).mpr ⟨hfmt, hta, htb⟩⟩
  | wide j _ hj hdec =>
    obtain ⟨htype, htarget, hfmt, rfl⟩ := decodeWide_eq_ok_iff.mp (hdec.symm.trans h)
    obtain ⟨hwf, hfields⟩ := hj
    exact ⟨hwf, hfields.trans ((wideFields_eq_iff hrsv).mpr ⟨htype, htarget, hfmt⟩)⟩
  | reserved _ _ _ _ hdec => cases hdec.symm.trans h

theorem decode_eq_ok_iff {w : CmdWord} {i : Instr} : decode w = .ok i ↔ i.wellFormed = true ∧ encode i = w := by
  rw [encode_eq_iff]
  constructor
  · exact wellFormed_and_fields_of_decodeFields
  · rintro ⟨hwf, hfields⟩
    rw [decode, ← hfields]
    exact decodeFields_fields hwf

/-- Settles O1: each row's decoder accepts the fields of the row's commands. -/
theorem decodeReadsEveryEncodedCommand : Obligations.DecodeReadsEveryEncodedCommand :=
  fun _ hwf => decode_eq_ok_iff.mpr ⟨hwf, rfl⟩

/-- Settles O2: in each row, the fields that decode to a command are all fixed by it. -/
theorem decodedWordIsTheCommandsWord : Obligations.DecodedWordIsTheCommandsWord :=
  fun _ _ => decode_eq_ok_iff.mp

end Sys2Proof
end

section
/-! Legal words: R89's predicate against the decoder, and the response to a word that is not legal (30_encoding.md R89
to R92). -/

namespace Sys2Proof

/-- R89's conditions, on the fields of the word, in the order in which the decoder checks them. -/
theorem legal_iff_fields {w : CmdWord} {f : Fields} (hf : fieldsOf w = f) :
    legal w = true ↔ f.rsv = 0 ∧
      if typedOpc f.opc.toNat then f.targetZero = true ∧ f.fmt = false ∧ f.wa.toNat ≤ 4
      else if f.opc.toNat = 0x20 ∨ f.opc.toNat = 0x21 then f.targetZero = true ∧ f.wa.toNat ≤ 4
      else if f.opc.toNat = 0x30 then f.fmt = false ∧ f.sb = f.sa ∧ f.wa.toNat ≤ 4 ∧ f.wb.toNat ≤ 4
      else if 0x80 ≤ f.opc.toNat ∧ f.opc.toNat ≤ 0x8A then
        (f.wa = 0 ∧ f.sa = false) ∧ f.targetZero = true ∧ f.fmt = false
      else False := by
  subst hf
  simp only [Fields.targetZero_iff, ← BitVec.toNat_inj, legal, Bool.and_eq_true, beq_iff_eq, apply_ite (· = true)]
  simp [fieldsOf, typedOpc, and_comm, and_left_comm, and_assoc]

/-- R89: the words that decode are the legal ones. -/
theorem exists_decode_eq_ok_iff (w : CmdWord) : (∃ i, decode w = .ok i) ↔ legal w = true := by
  rw [legal_iff_fields rfl, decode]
  generalize fieldsOf w = f
  by_cases hrsv : f.rsv = 0
  case neg => simp only [decodeFields_of_rsv_ne_zero hrsv, hrsv, reduceCtorEq, exists_false, false_and]
  cases opcodeRow hrsv with
  | typed mk hopc _ hdec =>
    simp [hrsv, hdec, if_pos hopc, decodeTyped_eq_ok_iff, ← exists_certumType_eq_ok_iff f.wa f.sa]
  | typedFmt mk hopc _ hdec =>
    have htyped : ¬ typedOpc f.opc.toNat := by omega
    simp [hrsv, hdec, if_neg htyped, if_pos hopc, decodeTypedFmt_eq_ok_iff, ← exists_certumType_eq_ok_iff f.wa f.sa]
  | conv hopc hdec =>
    simp [hrsv, hdec, hopc, decodeConv_eq_ok_iff, ← exists_certumType_eq_ok_iff f.wa f.sa,
      ← exists_certumType_eq_ok_iff f.wb f.sb]
  | wide i hopc _ hdec =>
    have htyped : ¬ typedOpc f.opc.toNat := by omega
    have hfmt : ¬ (f.opc.toNat = 0x20 ∨ f.opc.toNat = 0x21) := by omega
    have hconv : f.opc.toNat ≠ 0x30 := by omega
    simp [hrsv, hdec, if_neg htyped, if_neg hfmt, if_neg hconv, if_pos hopc, decodeWide_eq_ok_iff]
  | reserved htyped hfmt hconv hwide hdec =>
    simp [hdec, htyped, hfmt, hconv, hwide]

/-! ## The fields as parts of the word's number (R80) -/

section
variable (w : CmdWord)

theorem toNat_opc_fieldsOf : (fieldsOf w).opc.toNat = w.toNat % 2 ^ 8 := by
  simp [fieldsOf]

theorem toNat_wa_fieldsOf : (fieldsOf w).wa.toNat = w.toNat / 2 ^ 8 % 2 ^ 3 := by
  simp [fieldsOf, Nat.shiftRight_eq_div_pow]

theorem toNat_wb_fieldsOf : (fieldsOf w).wb.toNat = w.toNat / 2 ^ 12 % 2 ^ 3 := by
  simp [fieldsOf, Nat.shiftRight_eq_div_pow]

theorem toNat_rsv_fieldsOf : (fieldsOf w).rsv.toNat = w.toNat / 2 ^ 17 % 2 ^ 15 := by
  simp [fieldsOf, Nat.shiftRight_eq_div_pow]

theorem sa_fieldsOf : (fieldsOf w).sa = decide (w.toNat / 2 ^ 11 % 2 = 1) :=
  Nat.testBit_eq_decide_div_mod_eq

theorem sb_fieldsOf : (fieldsOf w).sb = decide (w.toNat / 2 ^ 15 % 2 = 1) :=
  Nat.testBit_eq_decide_div_mod_eq

theorem fmt_fieldsOf : (fieldsOf w).fmt = decide (w.toNat / 2 ^ 16 % 2 = 1) :=
  Nat.testBit_eq_decide_div_mod_eq

end

namespace Machine

/-! ## The response to an illegal word -/

theorem step_of_illegal {s : State} {r : Request} {rest : List Request} (hs : s.pending = r :: rest)
    (hillegal : legal r.cmd = false) :
    step s = .next { cmd := r.cmd, a := r.a, b := r.b, res := none, status := some 1, pending := rest } := by
  cases hdec : decode r.cmd with
  | ok i =>
    have hlegal := (exists_decode_eq_ok_iff r.cmd).mp ⟨i, hdec⟩
    cases hillegal.symm.trans hlegal
  | error e =>
    calc step s = answer (s.sample r rest) := step_of_pending hs
      _ = .next (s.sample r rest).rejectIllegal := answer_of_illegal hdec

/-- Settles O3: in each row of R87 the decoder asks for what R89 asks for, and the answer to a word that does not
decode is the fault. -/
theorem illegalCommandsCompleteWithIllegalCmd : Obligations.IllegalCommandsCompleteWithIllegalCmd :=
  ⟨exists_decode_eq_ok_iff, fun _ _ _ => step_of_illegal⟩

/-- Settles O5: a legal word's number is outside all ranges of R91 and meets no condition of R92. -/
theorem reservedOpcodesAndFieldsAreIllegal : Obligations.ReservedOpcodesAndFieldsAreIllegal := by
  intro s r rest hs hreserved
  refine step_of_illegal hs (Bool.eq_false_iff.mpr fun hlegal => ?_)
  have hlt := r.cmd.isLt
  obtain ⟨hrsv, hrow⟩ := (legal_iff_fields rfl).mp hlegal
  simp only [Fields.targetZero_iff, ← BitVec.toNat_inj, BitVec.ofNat_eq_ofNat, BitVec.toNat_ofNat, toNat_opc_fieldsOf,
    toNat_wa_fieldsOf, toNat_wb_fieldsOf, toNat_rsv_fieldsOf, sa_fieldsOf, sb_fieldsOf, fmt_fieldsOf,
    decide_eq_decide, decide_eq_false_iff_not] at hrsv hrow
  split_ifs at hrow <;> omega

end Machine
end Sys2Proof
end

section
/-! The list of all legal words, and how a word is assembled (30_encoding.md R89, R96). -/

namespace Sys2Proof

theorem CType.mem_all (t : CType) : t ∈ CType.all := by
  obtain ⟨width, signed⟩ := t
  cases width <;> cases signed <;> decide

theorem FloatFmt.mem_all (fmt : FloatFmt) : fmt ∈ FloatFmt.all := by
  cases fmt <;> decide

theorem Instr.mem_all_iff {i : Instr} : i ∈ Instr.all ↔ i.wellFormed = true := by
  simp only [Instr.all, List.mem_append, List.mem_flatMap, List.mem_map, List.mem_filter, CType.mem_all,
    FloatFmt.mem_all, true_and, List.mem_cons, List.not_mem_nil, or_false, exists_eq_or_imp, exists_eq_left]
  cases i <;> simp [Instr.wellFormed]

theorem Instr.length_all : Instr.all.length = 281 := by decide +kernel

/-- A number by which `Instr.all` is in ascending order: OPC first, with 0x20 to 0x30 moved behind 0x45, then signed
before unsigned, then WA, WB and FMT. -/
def Fields.rank (f : Fields) : Nat :=
  let opc := f.opc.toNat
  let group := if 0x20 ≤ opc ∧ opc ≤ 0x30 then opc + 0x30 else opc
  (((group * 2 + (!f.sa).toNat) * 8 + f.wa.toNat) * 8 + f.wb.toNat) * 2 + f.fmt.toNat

theorem Instr.sortedLT_rank_all : (Instr.all.map fun i => i.fields.rank).SortedLT := by
  rw [List.sortedLT_iff_isChain]
  decide +kernel

/-- No command is listed twice, since each has a greater rank than the one before it. -/
theorem Instr.nodup_all : Instr.all.Nodup :=
  Instr.sortedLT_rank_all.nodup.of_map

/-- Two commands with one word are what the word decodes to. -/
theorem encode_inj {i j : Instr} (hi : i.wellFormed = true) (hj : j.wellFormed = true) (h : encode i = encode j) :
    i = j :=
  Except.ok.inj ((decode_eq_ok_iff.mpr ⟨hi, h⟩).symm.trans (decode_eq_ok_iff.mpr ⟨hj, rfl⟩))

theorem mem_map_encode_all_iff {w : CmdWord} : w ∈ Instr.all.map encode ↔ legal w = true := by
  simp only [List.mem_map, Instr.mem_all_iff, ← exists_decode_eq_ok_iff, decode_eq_ok_iff]

/-- Settles O4: the legal words are the words of the well-formed commands, which `Instr.all` lists once each. -/
theorem exactlyTwoHundredEightyOneWordsAreLegal : Obligations.ExactlyTwoHundredEightyOneWordsAreLegal := by
  refine ⟨Instr.all.map encode, ?_, ?_, fun w => mem_map_encode_all_iff⟩
  · exact Instr.nodup_all.map_on fun i hi j hj => encode_inj (Instr.mem_all_iff.mp hi) (Instr.mem_all_iff.mp hj)
  · rw [List.length_map, Instr.length_all]

/-- With RSV zero, the packed word is the other fields, each shifted to its place (R96). -/
theorem packFields_eq_or {f : Fields} (hrsv : f.rsv = 0) :
    packFields f = f.opc.setWidth 32 ||| f.wa.setWidth 32 <<< 8 ||| (BitVec.ofBool f.sa).setWidth 32 <<< 11 |||
      f.wb.setWidth 32 <<< 12 ||| (BitVec.ofBool f.sb).setWidth 32 <<< 15 |||
      (BitVec.ofBool f.fmt).setWidth 32 <<< 16 := by
  apply BitVec.eq_of_getLsbD_eq
  intro k hk
  simp only [packFields, hrsv, BitVec.getLsbD_append, BitVec.getLsbD_ofBool, BitVec.getLsbD_or,
    BitVec.getLsbD_shiftLeft, BitVec.getLsbD_setWidth]
  interval_cases k <;> simp

/-- Settles O6: the formula holds of every command, RSV being zero, and the seven words are evaluated. -/
theorem commandWordIsAssembledFromItsFields : Obligations.CommandWordIsAssembledFromItsFields :=
  ⟨fun i => packFields_eq_or i.fields_rsv, by decide⟩

end Sys2Proof
end

section
/-! The layout accessors and the constants: what each gives, as parts of the operand's number and as values
(41_layout_constants.md). -/

namespace Sys2Proof.Machine

/-! ## Operands and results as numbers -/

theorem toNat_certumA (t : CType) (s : State) : (certumA t s).toNat = s.a.toNat % 2 ^ t.bits :=
  BitVec.toNat_setWidth t.bits s.a

/-- No pattern is wider than the result port, so zero-extending it keeps its number (R43). -/
theorem toNat_zeroExtended {t : CType} (p : t.Pattern) : (zeroExtended p).toNat = p.toNat := by
  have hport : t.bits ≤ 256 := t.bits_le.trans (by decide)
  exact BitVec.toNat_setWidth_of_le hport

theorem isNegative_certumA (t : CType) (s : State) :
    isNegative t (certumA t s) = true ↔ t.signed = true ∧ s.a.toNat / 2 ^ (t.bits - 1) % 2 = 1 := by
  have htop : t.bits - 1 < t.bits := Nat.sub_one_lt_of_lt t.bits_pos
  rw [isNegative, Bool.and_eq_true, BitVec.msb_eq_getLsbD_last, certumA, BitVec.getLsbD_setWidth, decide_eq_true htop,
    Bool.true_and, BitVec.getLsbD, Nat.testBit_eq_decide_div_mod_eq, decide_eq_true_eq]

/-- Settles O18: the operand is the low N bits of A, and the result port keeps its number. -/
theorem fromBitsGivesTheLowBits : Obligations.FromBitsGivesTheLowBits := by
  intro t s
  exact ⟨_, rfl, by rw [toNat_zeroExtended, toNat_certumA]⟩

/-- Settles O19: the sign of a pattern is its top bit where the type is signed. -/
theorem signBitGivesTheTopBit : Obligations.SignBitGivesTheTopBit := by
  intro t s
  refine ⟨_, rfl, ?_⟩
  have hneg := isNegative_certumA t s
  unfold bitResult
  split_ifs with h hs hs
  · exact (hneg.mp h).2.symm
  · exact absurd (hneg.mp h).1 hs
  · have hbit : s.a.toNat / 2 ^ (t.bits - 1) % 2 ≠ 1 := fun hbit => h (hneg.mpr ⟨hs, hbit⟩)
    exact (Nat.mod_two_ne_one.mp hbit).symm
  · rfl

/-! ## The sign -/

/-- A pattern has the sign of its integer reading (R122). -/
theorem signOf_eq_sign (t : CType) (b : t.Pattern) : signOf t b = SignType.sign (intOf t b) := by
  unfold signOf
  split_ifs with hzero hneg
  · rw [hzero, intOf_zero, sign_zero, SignType.coe_zero]
  · rw [sign_neg ((isNegative_iff t b).mp hneg), SignType.coe_neg_one]
  · have hne : intOf t b ≠ 0 := fun h => hzero (intOf_injective (h.trans (intOf_zero t).symm))
    have hle : 0 ≤ intOf t b := not_lt.mp (mt (isNegative_iff t b).mpr hneg)
    rw [sign_pos (lt_of_le_of_ne hle hne.symm), SignType.coe_one]

theorem sign_value (t : CType) (b : t.Pattern) : SignType.sign (Spec.value t b) = SignType.sign (intOf t b) := by
  have hden : (0 : ℚ) < 2 ^ t.fracBits := by positivity
  rw [Spec.value, div_eq_mul_inv, sign_mul, sign_pos (inv_pos.mpr hden), mul_one]
  exact sign_intCast _

/-- A sign on the result port reads back as the sign (R43). -/
theorem toInt_triResult (x : SignType) : (triResult x).toInt = x := by
  cases x <;> decide

/-- Settles O20: the result by cases of the pattern is the definition's, and its sign is that of the integer reading,
which the value has too. -/
theorem signGivesTheSignOfTheValue : Obligations.SignGivesTheSignOfTheValue := by
  intro t s
  refine ⟨_, rfl, ?_, ?_⟩
  · have hzero : certumA t s = 0 ↔ s.a.toNat % 2 ^ t.bits = 0 := by
      rw [← toNat_certumA, ← BitVec.toNat_inj]
      rfl
    simp only [signOf, hzero, isNegative_certumA]
    split_ifs <;> rfl
  · rw [signOf_eq_sign, toInt_triResult, sign_value, certumA]

/-! ## The integer and fraction fields -/

theorem fracBits_le_bits (t : CType) : t.fracBits ≤ t.bits := by
  have h := t.bits_eq
  omega

/-- Both arms of INTC shift the sign bit out, where there is one, and then down to the integer field. -/
theorem intComponent_eq (t : CType) (b : t.Pattern) :
    intComponent t b = (b <<< t.signed.toNat) >>> (t.signed.toNat + t.fracBits) := by
  have hbits := t.bits_eq
  unfold intComponent
  split_ifs with hs <;> simp only [hs, Bool.toNat_true, Bool.toNat_false, BitVec.shiftLeft_zero] at hbits ⊢ <;>
    congr 1 <;> omega

theorem toNat_intComponent (t : CType) (b : t.Pattern) :
    (intComponent t b).toNat = b.toNat % (2 ^ t.fracBits * 2 ^ t.intBits) / 2 ^ t.fracBits := by
  have hsplit : 2 ^ t.bits = 2 ^ t.fracBits * 2 ^ t.intBits * 2 ^ t.signed.toNat := by
    rw [t.bits_eq, pow_add, pow_add]
    ring
  have hpos : 0 < 2 ^ t.signed.toNat := by positivity
  calc (intComponent t b).toNat = b.toNat * 2 ^ t.signed.toNat % 2 ^ t.bits / 2 ^ (t.signed.toNat + t.fracBits) := by
        rw [intComponent_eq, BitVec.toNat_ushiftRight, BitVec.toNat_shiftLeft, Nat.shiftRight_eq_div_pow,
          Nat.shiftLeft_eq]
    _ = b.toNat % (2 ^ t.fracBits * 2 ^ t.intBits) / 2 ^ t.fracBits := by
        rw [hsplit, Nat.mul_mod_mul_right, pow_add, mul_comm (2 ^ t.signed.toNat), Nat.mul_div_mul_right _ _ hpos]

/-- Both arms of FRACC shift the fraction field up to the top of the pattern. -/
theorem fracComponent_eq (t : CType) (b : t.Pattern) : fracComponent t b = b <<< (t.bits - t.fracBits) := by
  have hbits := t.bits_eq
  unfold fracComponent
  split_ifs with hs <;> simp only [hs, Bool.toNat_true, Bool.toNat_false] at hbits <;> congr 1 <;> omega

theorem toNat_fracComponent (t : CType) (b : t.Pattern) :
    (fracComponent t b).toNat = b.toNat % 2 ^ t.fracBits * 2 ^ (t.bits - t.fracBits) := by
  have hsplit : 2 ^ t.bits = 2 ^ t.fracBits * 2 ^ (t.bits - t.fracBits) :=
    (pow_mul_pow_sub 2 (fracBits_le_bits t)).symm
  calc (fracComponent t b).toNat = b.toNat * 2 ^ (t.bits - t.fracBits) % 2 ^ t.bits := by
        rw [fracComponent_eq, BitVec.toNat_shiftLeft, Nat.shiftLeft_eq]
    _ = b.toNat % 2 ^ t.fracBits * 2 ^ (t.bits - t.fracBits) := by
        rw [hsplit, Nat.mul_mod_mul_right]

/-- Settles O21: the integer field lies within the low N bits of A. -/
theorem intComponentIsTheIntegerField : Obligations.IntComponentIsTheIntegerField := by
  intro t s
  have hdvd : 2 ^ t.fracBits * 2 ^ t.intBits ∣ 2 ^ t.bits := by
    rw [← pow_add]
    exact pow_dvd_pow 2 (by have h := t.bits_eq; omega)
  refine ⟨_, rfl, ?_⟩
  rw [toNat_zeroExtended, toNat_intComponent, toNat_certumA, Nat.mod_mod_of_dvd _ hdvd, Nat.mod_mul_right_div_self]

/-- Settles O22: the fraction field lies within the low N bits of A. -/
theorem fractionComponentIsLeftJustified : Obligations.FractionComponentIsLeftJustified := by
  intro t s
  have hdvd : 2 ^ t.fracBits ∣ 2 ^ t.bits := pow_dvd_pow 2 (fracBits_le_bits t)
  exact ⟨_, rfl, by rw [toNat_zeroExtended, toNat_fracComponent, toNat_certumA, Nat.mod_mod_of_dvd _ hdvd]⟩

end Sys2Proof.Machine
end

section
/-! The bounds of a type and its grain, and the float bounds (10_state.md R49 to R53, 41_layout_constants.md R126 to
R128, R133). -/

namespace Sys2Proof.Machine

/-! ## Integer bounds in the field widths -/

theorem minInt_eq (t : CType) : minInt t = if t.signed then -2 ^ (t.intBits + t.fracBits) else 0 := by
  have hbits := t.bits_eq
  unfold minInt
  split_ifs with hs
  · rw [hs, Bool.toNat_true] at hbits
    rw [hbits, add_assoc, Nat.add_sub_cancel_left]
  · rfl

theorem maxInt_eq (t : CType) : maxInt t = 2 ^ (t.intBits + t.fracBits) - 1 := by
  have hbits := t.bits_eq
  unfold maxInt
  split_ifs with hs <;> simp only [hs, Bool.toNat_true, Bool.toNat_false] at hbits <;> congr 2 <;> omega

theorem toNat_minPattern (t : CType) : (minPattern t).toNat = if t.signed then 2 ^ (t.bits - 1) else 0 := by
  have hlt : 2 ^ (t.bits - 1) < 2 ^ t.bits := Nat.pow_lt_pow_right one_lt_two (Nat.sub_one_lt_of_lt t.bits_pos)
  unfold minPattern
  split_ifs
  · rw [BitVec.toNat_ofNat, Nat.mod_eq_of_lt hlt]
  · simp

theorem toNat_maxPattern (t : CType) : (maxPattern t).toNat = maxMag t := by
  rw [maxPattern, BitVec.toNat_ofNat, Nat.mod_eq_of_lt (maxMag_lt t)]

theorem toNat_grainPattern (t : CType) : (grainPattern t).toNat = 1 := by
  rw [grainPattern, BitVec.toNat_ofNat, Nat.mod_eq_of_lt (Nat.one_lt_two_pow t.bits_pos.ne')]

theorem one_le_maxInt (t : CType) : 1 ≤ maxInt t := by
  have hwidth : t.intBits + t.fracBits ≠ 0 := by
    obtain ⟨w, s⟩ := t
    cases w <;> simp [CType.fracBits]
  have hpow : 2 ≤ 2 ^ (t.intBits + t.fracBits) := Nat.le_self_pow hwidth 2
  rw [maxInt_eq]
  zify at hpow
  omega

theorem intOf_grainPattern (t : CType) : intOf t (grainPattern t) = 1 := by
  have hgrain : grainPattern t = bitsOf t 1 := (BitVec.ofInt_natCast t.bits 1).symm
  rw [hgrain]
  exact intOf_bitsOf ((minInt_le_zero t).trans zero_le_one) (one_le_maxInt t)

/-! ## Values of the bounds -/

theorem value_le_value_iff {t : CType} {a b : t.Pattern} : Spec.value t a ≤ Spec.value t b ↔ intOf t a ≤ intOf t b := by
  have hden : (0 : ℚ) < 2 ^ t.fracBits := by positivity
  rw [Spec.value, Spec.value, div_le_div_iff_of_pos_right hden, Int.cast_le]

theorem value_pos_iff {t : CType} {a : t.Pattern} : 0 < Spec.value t a ↔ 0 < intOf t a := by
  rw [← sign_eq_one_iff, sign_value, sign_eq_one_iff]

theorem value_minPattern (t : CType) : Spec.value t (minPattern t) = if t.signed then -2 ^ t.intBits else 0 := by
  rw [Spec.value, intOf_minPattern, minInt_eq]
  split_ifs
  · push_cast
    rw [pow_add, neg_div, mul_div_cancel_right₀ _ (by positivity)]
  · simp

theorem value_maxPattern (t : CType) : Spec.value t (maxPattern t) = 2 ^ t.intBits - 1 / 2 ^ t.fracBits := by
  rw [Spec.value, intOf_maxPattern, maxInt_eq]
  push_cast
  rw [pow_add, sub_div, mul_div_cancel_right₀ _ (by positivity)]

theorem value_grainPattern (t : CType) : Spec.value t (grainPattern t) = 1 / 2 ^ t.fracBits := by
  rw [Spec.value, intOf_grainPattern, Int.cast_one]

/-- Settles O23: the order of values is that of the integer readings, where MIN and MAX are the ends of the range and
GRAIN is 1. -/
theorem loadMinMaxGrainGiveTheBounds : Obligations.LoadMinMaxGrainGiveTheBounds := by
  intro t s
  refine ⟨minPattern t, maxPattern t, grainPattern t, rfl, rfl, rfl, toNat_minPattern t, toNat_maxPattern t,
    toNat_grainPattern t, value_minPattern t, value_maxPattern t, value_grainPattern t, fun b => ?_, fun b hb => ?_⟩
  · rw [value_le_value_iff, value_le_value_iff, intOf_minPattern, intOf_maxPattern]
    exact intOf_mem t b
  · rw [value_le_value_iff, intOf_grainPattern]
    exact value_pos_iff.mp hb

/-! ## The tables of constants -/

/-- Settles O24: the model's table is that of R130, read for each signedness. -/
theorem loadPiAndEGiveTheTable : Obligations.LoadPiAndEGiveTheTable := by
  intro s
  refine ⟨fun sg => ?_, rfl, rfl, rfl, rfl⟩
  cases sg <;> exact ⟨rfl, rfl, rfl, rfl, rfl, rfl, rfl, rfl⟩

/-- Settles O27: each bound is MIN or MAX of the type rounded to binary64, evaluated. -/
theorem loadFloatBoundsGiveTheTable : Obligations.LoadFloatBoundsGiveTheTable := by
  intro s
  refine ⟨rfl, rfl, rfl, rfl, rfl, fun w => ?_, rfl, rfl, rfl, rfl, rfl, rfl, rfl, rfl, rfl, rfl⟩
  cases w <;> rfl

end Sys2Proof.Machine
end

section
/-! The constants π and e: rational numbers close to them, by partial sums of series, and the nearest patterns
(41_layout_constants.md R129, R130). -/

namespace Sys2Proof.Machine

/-! ## Rational numbers close to π and e -/

/-- PI_T of the 128-bit types as a rational number, closer to π than a quarter of their grain. -/
def piApprox : ℚ := 0x0C90FDAA22168C234C4C6628B80DC1CD / 2 ^ 122

/-- E_T of the 128-bit types as a rational number, closer to e than a quarter of their grain. -/
def eApprox : ℚ := 0x0ADF85458A2BB4A9AAFDC5620273D3CF / 2 ^ 122

/-- The sum of the first `n` terms of the power series of arctan at `x`. -/
def arctanSum (x : ℚ) (n : ℕ) : ℚ :=
  ∑ i ∈ Finset.range n, (-1) ^ i * (x ^ (2 * i + 1) / (2 * i + 1))

/-- From 0 to 1 the terms of the series alternate and decrease, so that its partial sums enclose arctan. -/
theorem arctanSum_bounds {x : ℚ} (h0 : 0 ≤ x) (h1 : x < 1) (k : ℕ) :
    (arctanSum x (2 * k) : ℝ) ≤ Real.arctan x ∧ Real.arctan x ≤ arctanSum x (2 * k + 1) := by
  have h0' : (0 : ℝ) ≤ x := by exact_mod_cast h0
  have h1' : (x : ℝ) < 1 := by exact_mod_cast h1
  have hdecreasing : Antitone fun i : ℕ => (x : ℝ) ^ (2 * i + 1) / (2 * i + 1) := by
    intro i j hij
    dsimp only
    gcongr ?_ / ?_
    · exact pow_le_pow_of_le_one h0' h1'.le (by omega)
    · exact_mod_cast (by omega : 2 * i + 1 ≤ 2 * j + 1)
  have hseries := (Real.hasSum_arctan (x := x) (by rwa [Real.norm_of_nonneg h0'])).tendsto_sum_nat
  simp only [mul_div_assoc, Nat.cast_add, Nat.cast_mul, Nat.cast_ofNat, Nat.cast_one] at hseries
  push_cast [arctanSum]
  exact ⟨hdecreasing.alternating_series_le_tendsto hseries k, hdecreasing.tendsto_le_alternating_series hseries k⟩

/-- Machin's formula, with 28 or 29 terms at 1/5 and 8 or 9 at 1/239. -/
theorem abs_piApprox_sub_pi_lt : |(piApprox : ℝ) - Real.pi| < 1 / 2 ^ 124 := by
  have hlo : piApprox - 1 / 2 ^ 124 < 4 * (4 * arctanSum 5⁻¹ 28 - arctanSum 239⁻¹ 9) := by
    norm_num [piApprox, arctanSum, Finset.sum_range_succ]
  have hhi : 4 * (4 * arctanSum 5⁻¹ 29 - arctanSum 239⁻¹ 8) < piApprox + 1 / 2 ^ 124 := by
    norm_num [piApprox, arctanSum, Finset.sum_range_succ]
  obtain ⟨h5lo, h5hi⟩ := arctanSum_bounds (x := 5⁻¹) (by norm_num) (by norm_num) 14
  obtain ⟨h239lo, h239hi⟩ := arctanSum_bounds (x := 239⁻¹) (by norm_num) (by norm_num) 4
  have hmachin := Real.four_mul_arctan_inv_5_sub_arctan_inv_239
  rify at hlo hhi
  push_cast at h5lo h5hi h239lo h239hi
  rw [abs_lt]
  constructor <;> linarith

/-- The sum of the first `n` terms of the power series of exp at 1. -/
def expSum (n : ℕ) : ℚ :=
  ∑ m ∈ Finset.range n, 1 / (m.factorial : ℚ)

theorem abs_expSum_sub_exp_one_le {n : ℕ} (hn : 0 < n) :
    |(expSum n : ℝ) - Real.exp 1| ≤ (n + 1) / (n.factorial * n) := by
  have hseries := Real.exp_bound (x := 1) (by simp) hn
  rw [abs_sub_comm] at hseries
  simpa [expSum] using hseries

/-- The exponential series at 1, with 34 terms. -/
theorem abs_eApprox_sub_exp_one_lt : |(eApprox : ℝ) - Real.exp 1| < 1 / 2 ^ 124 := by
  have happrox : |eApprox - expSum 34| + (34 + 1) / (Nat.factorial 34 * 34) < 1 / 2 ^ 124 := by
    norm_num [eApprox, expSum, Finset.sum_range_succ, Nat.factorial]
  have hseries := abs_expSum_sub_exp_one_le (n := 34) (by simp)
  rify at happrox
  calc |(eApprox : ℝ) - Real.exp 1| ≤ |(eApprox : ℝ) - expSum 34| + |(expSum 34 : ℝ) - Real.exp 1| := abs_sub_le _ _ _
    _ < 1 / 2 ^ 124 := by push_cast at hseries; linarith

/-! ## The nearest patterns -/

/-- A pattern whose value is within half a grain of a rational number, with 2^-124 to spare, is as near to a real
number that close to the rational one. -/
theorem abs_value_sub_lt {t : CType} {p : t.Pattern} {q : ℚ} {c : ℝ} (hc : |(q : ℝ) - c| < 1 / 2 ^ 124)
    (hp : |Spec.value t p - q| + 1 / 2 ^ 124 ≤ 1 / 2 / 2 ^ t.fracBits) :
    |(Spec.value t p : ℝ) - c| < 1 / 2 / 2 ^ t.fracBits := by
  rify at hp
  calc |(Spec.value t p : ℝ) - c| ≤ |(Spec.value t p : ℝ) - q| + |(q : ℝ) - c| := abs_sub_le _ _ _
    _ < 1 / 2 / 2 ^ t.fracBits := by linarith

/-- The table of R130 against the two rational numbers, for the nine types that hold the constants. -/
theorem abs_value_table_sub_approx_le {t : CType} (ht : t ≠ ⟨.w8, true⟩) :
    |Spec.value t (piPattern t) - piApprox| + 1 / 2 ^ 124 ≤ 1 / 2 / 2 ^ t.fracBits ∧
    |Spec.value t (ePattern t) - eApprox| + 1 / 2 ^ 124 ≤ 1 / 2 / 2 ^ t.fracBits := by
  revert ht
  obtain ⟨w, sg⟩ := t
  cases w <;> cases sg <;> decide +kernel

theorem abs_value_piPattern_sub_pi_lt {t : CType} (ht : t ≠ ⟨.w8, true⟩) :
    |(Spec.value t (piPattern t) : ℝ) - Real.pi| < 1 / 2 / 2 ^ t.fracBits :=
  abs_value_sub_lt abs_piApprox_sub_pi_lt (abs_value_table_sub_approx_le ht).1

theorem abs_value_ePattern_sub_exp_one_lt {t : CType} (ht : t ≠ ⟨.w8, true⟩) :
    |(Spec.value t (ePattern t) : ℝ) - Real.exp 1| < 1 / 2 / 2 ^ t.fracBits :=
  abs_value_sub_lt abs_eApprox_sub_exp_one_lt (abs_value_table_sub_approx_le ht).2

/-- MAX of s8 is 2 less a grain, so that both constants are above it. -/
theorem value_maxPattern_s8_lt_two : (Spec.value ⟨.w8, true⟩ (maxPattern ⟨.w8, true⟩) : ℝ) < 2 := by
  rw [value_maxPattern]
  norm_num [CType.intBits, CType.fracBits]

/-- Settles O25: the s8 entries are MAX, below both constants, and the other entries are near enough. -/
theorem piAndEAreNearestUpToSixtyFourBits : Obligations.PiAndEAreNearestUpToSixtyFourBits := by
  intro t _
  by_cases ht : t = ⟨.w8, true⟩
  · subst ht
    have hmax := value_maxPattern_s8_lt_two
    have hpi := Real.pi_gt_three
    have he := Real.exp_one_gt_d9
    exact ⟨.inl ⟨rfl, rfl, by linarith⟩, .inl ⟨rfl, rfl, by linarith⟩⟩
  · exact ⟨.inr ⟨ht, abs_value_piPattern_sub_pi_lt ht⟩, .inr ⟨ht, abs_value_ePattern_sub_exp_one_lt ht⟩⟩

/-- Settles O26: neither 128-bit type is s8. -/
theorem piAndEAreNearestAtOneTwentyEightBits : Obligations.PiAndEAreNearestAtOneTwentyEightBits := by
  intro t hwidth
  have ht : t ≠ ⟨.w8, true⟩ := by
    rintro rfl
    cases hwidth
  exact ⟨abs_value_piPattern_sub_pi_lt ht, abs_value_ePattern_sub_exp_one_lt ht⟩

end Sys2Proof.Machine
end

section
/-! The fields, the classes and the exact values of float patterns (00_scope.md R13, 20_memory.md R61). -/

namespace Sys2Proof.Machine

variable {fmt : FloatFmt} {p : fmt.Pattern}

/-! ## Classes of patterns -/

theorem isNaN_iff : isNaN fmt p = true ↔ floatExp fmt p = 2 ^ fmt.expBits - 1 ∧ floatFrac fmt p ≠ 0 := by
  rw [isNaN, Bool.and_eq_true, beq_iff_eq, bne_iff_ne]

theorem isInf_iff : isInf fmt p = true ↔ floatExp fmt p = 2 ^ fmt.expBits - 1 ∧ floatFrac fmt p = 0 := by
  rw [isInf, Bool.and_eq_true, beq_iff_eq, beq_iff_eq]

/-- The finite patterns are those whose exponent field is not all ones. -/
theorem isFinite_iff : Spec.isFinite fmt p ↔ floatExp fmt p ≠ 2 ^ fmt.expBits - 1 := by
  rw [Spec.isFinite, ← Bool.not_eq_true, ← Bool.not_eq_true, isNaN_iff, isInf_iff]
  tauto

theorem not_isNaN_of_isInf (h : isInf fmt p = true) : isNaN fmt p = false := by
  rw [← Bool.not_eq_true, isNaN_iff, (isInf_iff.mp h).2]
  simp

theorem isFinite_of_floatExp_eq_zero (h : floatExp fmt p = 0) : Spec.isFinite fmt p := by
  rw [isFinite_iff, h]
  cases fmt <;> decide

/-- The exponent field of a float operand, read from the port. -/
theorem floatExp_setWidth (fmt : FloatFmt) (a : PortWord) :
    floatExp fmt (a.setWidth fmt.bits) = a.toNat / 2 ^ fmt.fracBits % 2 ^ fmt.expBits := by
  cases fmt <;>
    simp only [floatExp, BitVec.toNat_setWidth, FloatFmt.bits, FloatFmt.fracBits, FloatFmt.expBits] <;> omega

/-- The fraction field of a float operand, read from the port. -/
theorem floatFrac_setWidth (fmt : FloatFmt) (a : PortWord) :
    floatFrac fmt (a.setWidth fmt.bits) = a.toNat % 2 ^ fmt.fracBits := by
  cases fmt <;> simp only [floatFrac, BitVec.toNat_setWidth, FloatFmt.bits, FloatFmt.fracBits] <;> omega

end Sys2Proof.Machine
end

section
/-! ENC: what the command answers by the class of its operand, and the rule on exact rational numbers
(42_float_codec.md R160 to R166, R171, R172). -/

namespace Sys2Proof.Machine

section
variable {t : CType} {fmt : FloatFmt} {s : State} {p : fmt.Pattern}

/-! ## The response by the class of the operand -/

theorem exec_enc_of_isNaN (hp : s.a.setWidth fmt.bits = p) (h : isNaN fmt p = true) :
    exec (.enc t fmt) s = .next { s with res := none, status := some 2 } := by
  subst hp
  exact if_pos h

theorem exec_enc_of_not_isNaN (hp : s.a.setWidth fmt.bits = p) (h : isNaN fmt p = false) :
    exec (.enc t fmt) s = .next { s with res := some ((encodeFloat t fmt p).setWidth 256), status := some 0 } := by
  subst hp
  exact if_neg (Bool.not_eq_true _ ▸ h)

/-- The infinities give the bounds (R166, R171). -/
theorem exec_enc_of_isInf (hp : s.a.setWidth fmt.bits = p) (h : isInf fmt p = true) :
    exec (.enc t fmt) s = .next { s with
      res := some ((if floatSign fmt p then minPattern t else maxPattern t).setWidth 256), status := some 0 } := by
  rw [exec_enc_of_not_isNaN hp (not_isNaN_of_isInf h), encodeFloat, if_pos h]

/-- A finite operand is encoded by its value (R162 to R165). -/
theorem exec_enc_of_isFinite (hp : s.a.setWidth fmt.bits = p) (h : Spec.isFinite fmt p) :
    exec (.enc t fmt) s = .next { s with
      res := some ((encodeFinite t (floatVal fmt p)).setWidth 256), status := some 0 } := by
  rw [exec_enc_of_not_isNaN hp h.1, encodeFloat, if_neg (Bool.not_eq_true _ ▸ h.2)]

end

/-- Settles O28: the fields of the operand are those of the low bits of A. -/
theorem encodeOfNaNFaults : Obligations.EncodeOfNaNFaults := by
  intro t s
  have hnan (fmt : FloatFmt) (hexp : s.a.toNat / 2 ^ fmt.fracBits % 2 ^ fmt.expBits = 2 ^ fmt.expBits - 1)
      (hfrac : s.a.toNat % 2 ^ fmt.fracBits ≠ 0) :
      exec (.enc t fmt) s = .next { s with res := none, status := some 2 } :=
    exec_enc_of_isNaN rfl (isNaN_iff.mpr ⟨by rwa [floatExp_setWidth], by rwa [floatFrac_setWidth]⟩)
  exact ⟨hnan .f64, hnan .f32⟩

/-- Settles O29: the four patterns are infinities, and the sign of each chooses the bound. -/
theorem encodeOfInfinityGivesTheBounds : Obligations.EncodeOfInfinityGivesTheBounds := by
  intro t s
  exact ⟨fun h => exec_enc_of_isInf (fmt := .f64) h rfl, fun h => exec_enc_of_isInf (fmt := .f64) h rfl,
    fun h => exec_enc_of_isInf (fmt := .f32) h rfl, fun h => exec_enc_of_isInf (fmt := .f32) h rfl⟩

end Sys2Proof.Machine
end

section
/-! ENC of a finite operand: the model's float units against the rule's exact rational numbers
(42_float_codec.md R162 to R166). -/

namespace Sys2Proof.Machine

/-! ## Float units as rational numbers -/

theorem floatUnit_pos : 0 < floatUnit := by
  unfold floatUnit
  positivity

theorem floatUnit_cast_pos : (0 : ℚ) < floatUnit :=
  Nat.cast_pos.mpr floatUnit_pos

/-- Clamping commutes with a positive change of units. -/
theorem clampInt_cast {u x lo hi : ℚ} {x' lo' hi' : ℤ} (hu : 0 < u) (hx : (x' : ℚ) = u * x) (hlo : (lo' : ℚ) = u * lo)
    (hhi : (hi' : ℚ) = u * hi) : (clampInt x' lo' hi' : ℚ) = u * Spec.clamp x lo hi := by
  have hbelow : x' < lo' ↔ x < lo := by rw [← Int.cast_lt (R := ℚ), hx, hlo, mul_lt_mul_iff_right₀ hu]
  have habove : hi' < x' ↔ hi < x := by rw [← Int.cast_lt (R := ℚ), hx, hhi, mul_lt_mul_iff_right₀ hu]
  unfold clampInt Spec.clamp
  simp only [hbelow, habove]
  split_ifs <;> assumption

theorem units_neg_iff {v : ℤ} {x : ℚ} (hv : (v : ℚ) = floatUnit * x) : v < 0 ↔ x < 0 := by
  have h := mul_lt_mul_iff_right₀ floatUnit_cast_pos (b := x) (c := 0)
  rwa [mul_zero, ← hv, Int.cast_lt_zero] at h

theorem floatVal_neg_iff (fmt : FloatFmt) (p : fmt.Pattern) : floatVal fmt p < 0 ↔ Spec.floatValue fmt p < 0 :=
  units_neg_iff (floatVal_eq fmt p)

/-- The operand ENC rounds: clamped to the float bounds of the type (R162). -/
def encClampValue (t : CType) (x : ℚ) : ℚ :=
  Spec.clamp x (Spec.floatValue .f64 (minF t)) (Spec.floatValue .f64 (maxF t))

/-- ENC step 1 in units is the rule's clamp (R162). -/
theorem encClamp_cast (t : CType) {v : ℤ} {x : ℚ} (hv : (v : ℚ) = floatUnit * x) :
    (encClamp t v : ℚ) = floatUnit * encClampValue t x :=
  clampInt_cast floatUnit_cast_pos hv (floatVal_eq _ _) (floatVal_eq _ _)

theorem natAbs_encClamp_cast (t : CType) {v : ℤ} {x : ℚ} (hv : (v : ℚ) = floatUnit * x) :
    ((encClamp t v).natAbs : ℚ) = floatUnit * |encClampValue t x| := by
  rw [Nat.cast_natAbs, Int.cast_abs, encClamp_cast t hv, abs_mul, abs_of_pos floatUnit_cast_pos]

/-! ## The steps of ENC on a magnitude -/

section
variable {a : ℕ} {x : ℚ}

/-- The integer part of the split (R163). -/
theorem floor_eq_units_div (ha : (a : ℚ) = floatUnit * x) : ⌊x⌋ = ((a / floatUnit : ℕ) : ℤ) := by
  have hx : x = (a : ℚ) / floatUnit := by rw [ha, mul_div_cancel_left₀ _ floatUnit_cast_pos.ne']
  rw [hx, Rat.floor_natCast_div_natCast]
  rfl

/-- The fraction part of the split, in units of 1.0 (R163). -/
theorem fract_eq_units_mod (ha : (a : ℚ) = floatUnit * x) : x - ⌊x⌋ = ((a % floatUnit : ℕ) : ℚ) / floatUnit := by
  have hdm : (floatUnit * (a / floatUnit : ℕ) + (a % floatUnit : ℕ) : ℚ) = a := by
    exact_mod_cast Nat.div_add_mod a floatUnit
  rw [floor_eq_units_div ha, Int.cast_natCast, eq_div_iff floatUnit_cast_pos.ne']
  linarith

/-- ENC step 2 in units is the rule's first rounding (R163). -/
theorem encFraction_eq (ha : (a : ℚ) = floatUnit * x) :
    (encFraction a : ℤ) = Spec.roundHalfAway ((x - ⌊x⌋) * 2 ^ 64) := by
  rw [encFraction, roundHalfAway_eq _ floatUnit_pos, fract_eq_units_mod ha, div_mul_eq_mul_div, Nat.cast_mul,
    Nat.cast_pow]
  rfl

/-- ENC step 3 on whole numbers (R164). -/
theorem encRound_cast (f fp : ℕ) :
    (encRound f fp : ℤ) =
      if f ≤ 63 then ((fp : ℤ) + 2 ^ (63 - f)) / 2 ^ (64 - f) else (fp : ℤ) * 2 ^ (f - 64) := by
  have hlt : f < 64 ↔ f ≤ 63 := Nat.lt_succ_iff
  simp only [encRound, Config.encFractionBits, hlt]
  split_ifs <;> push_cast <;> rfl

/-- ENC steps 2 to 4 in units are the rule's magnitude (R163 to R165). -/
theorem encMagnitude_cast (t : CType) (ha : (a : ℚ) = floatUnit * x) :
    (encMagnitude t a : ℤ) = ⌊x⌋ * 2 ^ t.fracBits +
      if t.fracBits ≤ 63
      then (Spec.roundHalfAway ((x - ⌊x⌋) * 2 ^ 64) + 2 ^ (63 - t.fracBits)) / 2 ^ (64 - t.fracBits)
      else Spec.roundHalfAway ((x - ⌊x⌋) * 2 ^ 64) * 2 ^ (t.fracBits - 64) := by
  rw [encMagnitude, Nat.cast_add, Nat.cast_mul, encRound_cast, encFraction_eq ha, ← floor_eq_units_div ha, Nat.cast_pow,
    Nat.cast_ofNat]

end

/-- The saturating sign of the rule, on whole numbers (R165). -/
theorem signMagnitude_eq (t : CType) (neg : Bool) (m : ℕ) :
    signMagnitude t neg m =
      if neg = true then if (2 ^ (t.bits - 1) : ℤ) ≤ m then minPattern t else bitsOf t (2 ^ t.bits - m)
      else if (maxMag t : ℤ) < m then maxPattern t else bitsOf t m := by
  have hbound : 2 ^ (t.bits - 1) ≤ m ↔ (2 ^ (t.bits - 1) : ℤ) ≤ m := by norm_cast
  simp only [signMagnitude, hbound, Nat.cast_lt, bitsOf, BitVec.ofInt_natCast]
  split_ifs with hneg hlarge hmax
  · rfl
  · have hm : m ≤ 2 ^ t.bits := by
      have h := t.two_pow_bits
      rw [← hbound] at hlarge
      omega
    rw [← BitVec.ofInt_natCast, Nat.cast_sub hm]
    norm_cast
  · rfl
  · rfl

/-- ENC of a finite value is the rule's pseudocode on rational numbers (R166). -/
theorem encodeFinite_eq_encodeValue (t : CType) (fmt : FloatFmt) (p : fmt.Pattern) :
    encodeFinite t (floatVal fmt p) = Spec.encodeValue t (Spec.floatValue fmt p) := by
  rw [encodeFinite, signMagnitude_eq, encMagnitude_cast t (natAbs_encClamp_cast t (floatVal_eq fmt p))]
  simp only [Bool.and_eq_true, decide_eq_true_eq, floatVal_neg_iff]
  rfl

/-- Settles O30: the three classes of operands, the finite ones by the steps of the rule. -/
theorem encodeFollowsTheRationalRule : Obligations.EncodeFollowsTheRationalRule := by
  intro t fmt s
  refine ⟨exec_enc_of_isNaN rfl, exec_enc_of_isInf rfl, fun h => ?_⟩
  rw [exec_enc_of_isFinite rfl h, encodeFinite_eq_encodeValue]

end Sys2Proof.Machine
end

section
/-! The error of ENC's two roundings, and the operands ENC takes to zero (42_float_codec.md R162 to R166, R172). -/

namespace Sys2Proof.Machine

/-! ## Clamping rational numbers -/

theorem clamp_eq_max_min {x lo hi : ℚ} (h : lo ≤ hi) : Spec.clamp x lo hi = max lo (min hi x) := by
  unfold Spec.clamp
  split_ifs with hlo hhi
  · rw [min_eq_right (hlo.le.trans h), max_eq_left hlo.le]
  · rw [min_eq_left hhi.le, max_eq_right h]
  · rw [min_eq_right (not_lt.mp hhi), max_eq_right (not_lt.mp hlo)]

/-- Clamping brings numbers no further apart. -/
theorem abs_clamp_sub_clamp_le {x y lo hi : ℚ} (h : lo ≤ hi) : |Spec.clamp x lo hi - Spec.clamp y lo hi| ≤ |x - y| := by
  rw [clamp_eq_max_min h, clamp_eq_max_min h, max_comm lo, max_comm lo, min_comm hi, min_comm hi]
  calc |max (min x hi) lo - max (min y hi) lo| ≤ |min x hi - min y hi| := abs_max_sub_max_le_abs _ _ _
    _ ≤ max |x - y| |hi - hi| := abs_min_sub_min_le_max _ _ _ _
    _ = |x - y| := by rw [sub_self, abs_zero, max_eq_left (abs_nonneg _)]

/-- Clamping to a wider range first changes nothing. -/
theorem clamp_clamp_of_le {x lo hi lo' hi' : ℚ} (hlo : lo' ≤ lo) (h : lo ≤ hi) (hhi : hi ≤ hi') :
    Spec.clamp (Spec.clamp x lo' hi') lo hi = Spec.clamp x lo hi := by
  rw [clamp_eq_max_min h, clamp_eq_max_min h, clamp_eq_max_min (hlo.trans (h.trans hhi)), min_max_distrib_left,
    ← min_assoc, min_eq_left hhi, ← max_assoc, max_eq_left ((min_le_right _ _).trans hlo)]

/-! ## The float bounds against the bounds of the type -/

/-- MIN of every type is 0 or a negative power of two, which binary64 holds exactly (R133). -/
theorem floatValue_minF (t : CType) : Spec.floatValue .f64 (minF t) = Spec.value t (minPattern t) := by
  obtain ⟨w, sg⟩ := t
  cases w <;> cases sg <;> decide +kernel

/-- MAX rounded to binary64 is MAX itself, or for the types of 64 and 128 bits the power of two above it (R133). -/
theorem value_maxPattern_le_floatValue_maxF (t : CType) :
    Spec.value t (maxPattern t) ≤ Spec.floatValue .f64 (maxF t) := by
  obtain ⟨w, sg⟩ := t
  cases w <;> cases sg <;> decide +kernel

theorem value_minPattern_nonpos (t : CType) : Spec.value t (minPattern t) ≤ 0 := by
  rw [← value_zero t, value_le_value_iff, intOf_zero, intOf_minPattern]
  exact minInt_le_zero t

theorem value_maxPattern_nonneg (t : CType) : 0 ≤ Spec.value t (maxPattern t) := by
  rw [← value_zero t, value_le_value_iff, intOf_zero, intOf_maxPattern]
  exact zero_le_maxInt t

theorem value_minPattern_le_maxPattern (t : CType) : Spec.value t (minPattern t) ≤ Spec.value t (maxPattern t) :=
  (value_minPattern_nonpos t).trans (value_maxPattern_nonneg t)

theorem encClampValue_eq (t : CType) (x : ℚ) :
    encClampValue t x = max (Spec.value t (minPattern t)) (min (Spec.floatValue .f64 (maxF t)) x) := by
  rw [encClampValue, floatValue_minF, clamp_eq_max_min]
  exact (value_minPattern_le_maxPattern t).trans (value_maxPattern_le_floatValue_maxF t)

/-- Clamping leaves an operand below zero there. -/
theorem encClampValue_nonpos (t : CType) {x : ℚ} (hx : x < 0) : encClampValue t x ≤ 0 := by
  rw [encClampValue_eq]
  exact max_le (value_minPattern_nonpos t) ((min_le_right _ _).trans hx.le)

/-- An operand to which ENC applies no sign is clamped to zero or more. -/
theorem encClampValue_nonneg {t : CType} {x : ℚ} (h : ¬(t.signed = true ∧ x < 0)) : 0 ≤ encClampValue t x := by
  rw [encClampValue_eq]
  by_cases hx : x < 0
  · have hmin : Spec.value t (minPattern t) = 0 := by rw [value_minPattern, if_neg fun hs => h ⟨hs, hx⟩]
    exact le_max_of_le_left hmin.ge
  · have hmax := (value_maxPattern_nonneg t).trans (value_maxPattern_le_floatValue_maxF t)
    exact le_max_of_le_right (le_min hmax (not_lt.mp hx))

/-! ## The two roundings -/

theorem abs_roundHalfAway_sub_le (n : ℕ) {d : ℕ} (hd : 0 < d) : |(roundHalfAway n d : ℚ) - n / d| ≤ 1 / 2 := by
  have hdq : (0 : ℚ) < d := by exact_mod_cast hd
  have hdm := Nat.div_add_mod (2 * n + d) (2 * d)
  have hlt : (2 * n + d) % (2 * d) < 2 * d := Nat.mod_lt _ (by omega)
  rw [← roundHalfAway] at hdm
  have hlo : (2 * d * roundHalfAway n d : ℚ) ≤ 2 * n + d := by exact_mod_cast hdm ▸ Nat.le_add_right _ _
  have hhi : (2 * n + d : ℚ) ≤ 2 * d * roundHalfAway n d + 2 * d := by
    exact_mod_cast hdm ▸ Nat.add_le_add_left hlt.le _
  rw [sub_div' hdq.ne', abs_div, abs_of_pos hdq, div_le_iff₀ hdq, abs_le]
  constructor <;> linarith

/-- The second rounding is the first one's, of the 64-bit fraction in units of a grain (R163, R164). -/
theorem encRound_eq_roundHalfAway {f : ℕ} (hf : f < 64) (fp : ℕ) : encRound f fp = roundHalfAway fp (2 ^ (64 - f)) := by
  have hhalf : 2 ^ (64 - f) = 2 * 2 ^ (63 - f) := by rw [← pow_succ']; congr 1; omega
  rw [encRound, Config.encFractionBits, if_pos hf, roundHalfAway, hhalf, ← Nat.mul_add,
    Nat.mul_div_mul_left _ _ two_pos]

/-- The first rounding is off by at most half of 2^-64 (R163). -/
theorem abs_encFraction_sub_le (a : ℕ) :
    |(encFraction a : ℚ) / 2 ^ 64 - (a % floatUnit : ℕ) / floatUnit| ≤ 1 / 2 ^ 65 := by
  have h := abs_roundHalfAway_sub_le (a % floatUnit * 2 ^ 64) floatUnit_pos
  have hfrac : (encFraction a : ℚ) / 2 ^ 64 - (a % floatUnit : ℕ) / floatUnit =
      (roundHalfAway (a % floatUnit * 2 ^ 64) floatUnit - (a % floatUnit * 2 ^ 64 : ℕ) / floatUnit) / 2 ^ 64 := by
    rw [encFraction, Config.encFractionBits, Nat.cast_mul, sub_div, mul_div_right_comm, Nat.cast_pow, Nat.cast_ofNat,
      mul_div_cancel_right₀ _ (by positivity)]
  rw [hfrac, abs_div, abs_of_pos (a := (2 : ℚ) ^ 64) (by positivity), div_le_iff₀ (by positivity)]
  exact h.trans (by norm_num)

/-- The bound on the second rounding: half a grain, and nothing for the types of 128 bits (R164). -/
def encRoundError (t : CType) : ℚ :=
  if t.width = .w128 then 0 else 1 / 2 / 2 ^ t.fracBits

/-- Only the types of 128 bits have a finer grain than 2^-64. -/
theorem fracBits_lt_iff (t : CType) : t.fracBits < 64 ↔ t.width ≠ .w128 := by
  obtain ⟨w, sg⟩ := t
  cases w <;> simp [CType.fracBits]

theorem abs_encRound_sub_le (t : CType) (fp : ℕ) :
    |(encRound t.fracBits fp : ℚ) / 2 ^ t.fracBits - fp / 2 ^ 64| ≤ encRoundError t := by
  unfold encRoundError
  by_cases hf : t.fracBits < 64
  · have h := abs_roundHalfAway_sub_le fp (d := 2 ^ (64 - t.fracBits)) (by positivity)
    have hpow : (2 : ℚ) ^ 64 = 2 ^ (64 - t.fracBits) * 2 ^ t.fracBits := by rw [← pow_add]; congr 1; omega
    rw [if_neg ((fracBits_lt_iff t).mp hf), encRound_eq_roundHalfAway hf, hpow, ← div_div, ← sub_div, abs_div,
      abs_of_pos (a := (2 : ℚ) ^ t.fracBits) (by positivity)]
    push_cast at h
    gcongr
  · have hpow : (2 : ℚ) ^ t.fracBits = 2 ^ (t.fracBits - 64) * 2 ^ 64 := by rw [← pow_add]; congr 1; omega
    rw [if_pos (not_not.mp (mt (fracBits_lt_iff t).mpr hf)), encRound, Config.encFractionBits, if_neg hf, Nat.cast_mul,
      Nat.cast_pow, Nat.cast_ofNat, hpow, mul_comm (fp : ℚ), mul_div_mul_left _ _ (by positivity), sub_self, abs_zero]

/-- The magnitude is off by at most the two roundings (R163 to R165). -/
theorem abs_encMagnitude_sub_le (t : CType) (a : ℕ) :
    |(encMagnitude t a : ℚ) / 2 ^ t.fracBits - a / floatUnit| ≤ 1 / 2 ^ 65 + encRoundError t := by
  have hsplit : (encMagnitude t a : ℚ) / 2 ^ t.fracBits = (a / floatUnit : ℕ) +
      encRound t.fracBits (encFraction a) / 2 ^ t.fracBits := by
    rw [encMagnitude, Nat.cast_add, Nat.cast_mul, add_div, Nat.cast_pow, Nat.cast_ofNat,
      mul_div_cancel_right₀ _ (by positivity)]
  have ha : (a : ℚ) / floatUnit = (a / floatUnit : ℕ) + (a % floatUnit : ℕ) / floatUnit := by
    rw [div_eq_iff floatUnit_cast_pos.ne', add_mul, div_mul_cancel₀ _ floatUnit_cast_pos.ne']
    exact_mod_cast (Nat.div_add_mod' a floatUnit).symm
  rw [hsplit, ha, add_sub_add_left_eq_sub, add_comm (1 / 2 ^ 65)]
  exact (abs_sub_le _ _ _).trans (add_le_add (abs_encRound_sub_le t _) (abs_encFraction_sub_le a))

/-! ## The error of ENC -/

section
variable (t : CType) {v : ℤ} {x : ℚ}

/-- The pattern of a signed magnitude has that number's value, clamped to the values of the type (R165). -/
theorem value_signMagnitude {neg : Bool} {m : ℕ} (h : neg = true → t.signed = true) :
    Spec.value t (signMagnitude t neg m) = Spec.clamp ((if neg then -(m : ℚ) else m) / 2 ^ t.fracBits)
      (Spec.value t (minPattern t)) (Spec.value t (maxPattern t)) := by
  have hden : (0 : ℚ) < 2 ^ t.fracBits := by positivity
  have hvalue (b : t.Pattern) : (intOf t b : ℚ) = 2 ^ t.fracBits * Spec.value t b := (mul_div_cancel₀ _ hden.ne').symm
  have hm : ((if neg then -(m : ℤ) else m : ℤ) : ℚ) =
      2 ^ t.fracBits * ((if neg then -(m : ℚ) else m) / 2 ^ t.fracBits) := by
    rw [mul_div_cancel₀ _ hden.ne']
    split_ifs <;> push_cast <;> rfl
  rw [Spec.value, intOf_signMagnitude h, ← intOf_minPattern, ← intOf_maxPattern,
    clampInt_cast hden hm (hvalue _) (hvalue _), mul_div_cancel_left₀ _ hden.ne']

/-- ENC is off the operand, clamped to the values of the type, by at most its two roundings: the saturating sign
moves the rounded number no further from the clamped one (R162 to R165). -/
theorem abs_value_encodeFinite_sub_le (hv : (v : ℚ) = floatUnit * x) :
    |Spec.value t (encodeFinite t v) - Spec.clamp x (Spec.value t (minPattern t)) (Spec.value t (maxPattern t))| ≤
      1 / 2 ^ 65 + encRoundError t := by
  have ha : ((encClamp t v).natAbs : ℚ) / floatUnit = |encClampValue t x| := by
    rw [natAbs_encClamp_cast t hv, mul_div_cancel_left₀ _ floatUnit_cast_pos.ne']
  have hclamp := value_minPattern_le_maxPattern t
  have hm := abs_encMagnitude_sub_le t (encClamp t v).natAbs
  rw [ha] at hm
  rw [encodeFinite, value_signMagnitude t (fun h => (Bool.and_eq_true _ _ ▸ h).1),
    ← clamp_clamp_of_le (x := x) (floatValue_minF t).le hclamp (value_maxPattern_le_floatValue_maxF t), ← encClampValue]
  refine (abs_clamp_sub_clamp_le hclamp).trans (le_trans (le_of_eq ?_) hm)
  simp only [Bool.and_eq_true, decide_eq_true_eq, units_neg_iff hv]
  split_ifs with hsign
  · rw [abs_of_nonpos (encClampValue_nonpos t hsign.2), neg_div, sub_neg_eq_add, ← neg_add', abs_neg]
  · rw [abs_of_nonneg (encClampValue_nonneg hsign)]

end

/-- Settles O31: the operand in float units is its value, and the bound is that of the two roundings. -/
theorem encodeErrorIsBoundedByItsTwoRoundings : Obligations.EncodeErrorIsBoundedByItsTwoRoundings := by
  intro t fmt s h
  exact ⟨_, exec_enc_of_isFinite rfl h, abs_value_encodeFinite_sub_le t (floatVal_eq fmt _)⟩

/-! ## Operands that give zero -/

/-- A number clamped to a range around zero is no larger in magnitude. -/
theorem natAbs_clampInt_le {x lo hi : ℤ} (hlo : lo ≤ 0) (hhi : 0 ≤ hi) : (clampInt x lo hi).natAbs ≤ x.natAbs := by
  unfold clampInt
  split_ifs <;> omega

theorem floatVal_maxF_nonneg (t : CType) : 0 ≤ floatVal .f64 (maxF t) := by
  rw [← not_lt, floatVal_neg_iff, not_lt]
  exact (value_maxPattern_nonneg t).trans (value_maxPattern_le_floatValue_maxF t)

theorem floatVal_minF_nonpos (t : CType) : floatVal .f64 (minF t) ≤ 0 := by
  rw [← Int.cast_nonpos (R := ℚ), floatVal_eq, floatValue_minF]
  exact mul_nonpos_of_nonneg_of_nonpos floatUnit_cast_pos.le (value_minPattern_nonpos t)

theorem floatVal_minF_of_unsigned {t : CType} (h : t.signed = false) : floatVal .f64 (minF t) = 0 := by
  rw [← Int.cast_eq_zero (α := ℚ), floatVal_eq, floatValue_minF, value_minPattern, h,
    if_neg Bool.false_ne_true, mul_zero]

/-- A quotient below a half rounds to 0. -/
theorem roundHalfAway_eq_zero {n d : ℕ} (h : 2 * n < d) : roundHalfAway n d = 0 :=
  Nat.div_eq_of_lt (by omega)

theorem encRound_zero (f : ℕ) : encRound f 0 = 0 := by
  by_cases hf : f < 64
  · rw [encRound_eq_roundHalfAway hf, roundHalfAway_eq_zero (by positivity)]
  · rw [encRound, Config.encFractionBits, if_neg hf, Nat.zero_mul]

/-- Less than half of 2^-64 is rounded away, whatever the type (R163). -/
theorem encMagnitude_eq_zero (t : CType) {a : ℕ} (h : a * 2 ^ 65 < floatUnit) : encMagnitude t a = 0 := by
  have ha : a < floatUnit := by omega
  have hfrac : encFraction a = 0 := by
    rw [encFraction, Nat.mod_eq_of_lt ha]
    exact roundHalfAway_eq_zero (by rw [Config.encFractionBits]; omega)
  rw [encMagnitude, Nat.div_eq_of_lt ha, hfrac, encRound_zero, Nat.zero_mul]

theorem encodeFinite_eq_zero {t : CType} {v : ℤ} (h : (encClamp t v).natAbs * 2 ^ 65 < floatUnit) :
    encodeFinite t v = 0 := by
  apply intOf_injective
  rw [encodeFinite, encMagnitude_eq_zero t h, intOf_signMagnitude fun hneg => (Bool.and_eq_true _ _ ▸ hneg).1,
    intOf_zero, Nat.cast_zero, neg_zero, ite_self, clampInt_of_mem (minInt_le_zero t) (zero_le_maxInt t)]

theorem natAbs_floatVal (fmt : FloatFmt) (p : fmt.Pattern) : (floatVal fmt p).natAbs = floatMag fmt p := by
  unfold floatVal
  split_ifs
  · rw [Int.natAbs_neg, Int.natAbs_natCast]
  · rw [Int.natAbs_natCast]

theorem subnormalUnits_pos (fmt : FloatFmt) : 0 < subnormalUnits fmt := by
  cases fmt <;> decide +kernel

/-- Subnormal values are far below half of 2^-64. -/
theorem natAbs_floatVal_of_floatExp_eq_zero {fmt : FloatFmt} {p : fmt.Pattern} (h : floatExp fmt p = 0) :
    (floatVal fmt p).natAbs * 2 ^ 65 < floatUnit := by
  have hfrac : floatFrac fmt p < 2 ^ fmt.fracBits := Nat.mod_lt _ (by positivity)
  have hval : (floatVal fmt p).natAbs = floatFrac fmt p * subnormalUnits fmt := by
    rw [natAbs_floatVal, floatMag, if_pos h]
  have hsub : 2 ^ fmt.fracBits * subnormalUnits fmt * 2 ^ 65 < floatUnit := by
    cases fmt <;> decide +kernel
  have hpos := subnormalUnits_pos fmt
  rw [hval]
  exact lt_of_le_of_lt (by gcongr) hsub

/-- Settles O32: the clamped operand is zero or below half of 2^-64. -/
theorem encodeOfNegativeOrSubnormalGivesZero : Obligations.EncodeOfNegativeOrSubnormalGivesZero := by
  intro t fmt s h
  suffices hfinite : Spec.isFinite fmt (s.a.setWidth fmt.bits) ∧
      (encClamp t (floatVal fmt (s.a.setWidth fmt.bits))).natAbs * 2 ^ 65 < floatUnit by
    rw [exec_enc_of_isFinite rfl hfinite.1, encodeFinite_eq_zero hfinite.2, BitVec.ofNat_eq_ofNat,
      BitVec.setWidth_zero]
    rfl
  rcases h with hexp | ⟨hunsigned, hfinite, hneg⟩
  · refine ⟨isFinite_of_floatExp_eq_zero hexp, lt_of_le_of_lt ?_ (natAbs_floatVal_of_floatExp_eq_zero hexp)⟩
    exact Nat.mul_le_mul_right _ (natAbs_clampInt_le (floatVal_minF_nonpos t) (floatVal_maxF_nonneg t))
  · refine ⟨hfinite, ?_⟩
    rw [encClamp, clampInt, floatVal_minF_of_unsigned hunsigned, if_pos ((floatVal_neg_iff _ _).mpr hneg)]
    exact floatUnit_pos

/-- Settles O34: the operand is 31/32 of half a grain, and the evaluated command gives a grain. -/
theorem encodeRoundsTwice : Obligations.EncodeRoundsTwice := by
  refine ⟨by decide +kernel, by decide +kernel, fun s h => ?_⟩
  have hfinite : Spec.isFinite .f64 (0x3C2F000000000000 : BitVec 64) := isFinite_iff.mpr (by decide)
  have hgrain : encodeFinite ⟨.w64, true⟩ (floatVal .f64 (0x3C2F000000000000 : BitVec 64)) = 1 := by decide +kernel
  rw [exec_enc_of_isFinite (fmt := .f64) h hfinite, hgrain]
  rfl

end Sys2Proof.Machine
end

section
/-! Float patterns made from a sign, an exponent and a significand, and ENC of a binary32 operand as ENC of a binary64
one (00_scope.md R13, 20_memory.md R61, 42_float_codec.md R160). -/

namespace Sys2Proof.Machine

variable {fmt : FloatFmt}

/-! ## A pattern from its fields -/

/-- The pattern with the given sign, exponent field and fraction field (R61). -/
def ofFields (fmt : FloatFmt) (neg : Bool) (e r : ℕ) : fmt.Pattern :=
  BitVec.ofNat fmt.bits ((if neg then 2 ^ (fmt.bits - 1) else 0) + (e * 2 ^ fmt.fracBits + r))

theorem two_pow_bits_sub_one (fmt : FloatFmt) : 2 ^ (fmt.bits - 1) = 2 ^ fmt.fracBits * 2 ^ fmt.expBits := by
  cases fmt <;> rfl

theorem two_pow_bits (fmt : FloatFmt) : 2 ^ fmt.bits = 2 * 2 ^ (fmt.bits - 1) := by
  cases fmt <;> rfl

section
variable {neg : Bool} {e r : ℕ} (he : e < 2 ^ fmt.expBits) (hr : r < 2 ^ fmt.fracBits)
include he hr

theorem fields_lt : e * 2 ^ fmt.fracBits + r < 2 ^ (fmt.bits - 1) := by
  calc e * 2 ^ fmt.fracBits + r < e * 2 ^ fmt.fracBits + 2 ^ fmt.fracBits := Nat.add_lt_add_left hr _
    _ = (e + 1) * 2 ^ fmt.fracBits := by ring
    _ ≤ 2 ^ fmt.expBits * 2 ^ fmt.fracBits := Nat.mul_le_mul_right _ he
    _ = 2 ^ (fmt.bits - 1) := by rw [two_pow_bits_sub_one, mul_comm]

theorem toNat_ofFields :
    (ofFields fmt neg e r).toNat = (if neg then 2 ^ (fmt.bits - 1) else 0) + (e * 2 ^ fmt.fracBits + r) := by
  have hlt := fields_lt he hr
  have hbits := two_pow_bits fmt
  rw [ofFields, BitVec.toNat_ofNat, Nat.mod_eq_of_lt]
  split_ifs <;> omega

theorem floatSign_ofFields : floatSign fmt (ofFields fmt neg e r) = neg := by
  have hlt := fields_lt he hr
  rw [floatSign, BitVec.msb_eq_decide, toNat_ofFields he hr]
  cases neg
  · simpa using hlt
  · simp

theorem floatFrac_ofFields : floatFrac fmt (ofFields fmt neg e r) = r := by
  rw [floatFrac, toNat_ofFields he hr, two_pow_bits_sub_one, mul_comm e]
  split_ifs <;> simp [Nat.add_mod, Nat.mod_eq_of_lt hr]

theorem floatExp_ofFields : floatExp fmt (ofFields fmt neg e r) = e := by
  have hpos : 0 < 2 ^ fmt.fracBits := by positivity
  rw [floatExp, toNat_ofFields he hr, two_pow_bits_sub_one, mul_comm e]
  split_ifs <;> simp [Nat.mul_add_div hpos, Nat.div_eq_of_lt hr, Nat.mod_eq_of_lt he]

end

/-! ## A pattern from its significand -/

/-- The pattern of `sig · 2^k` units of the last subnormal bit, for a significand that fills the fraction and the
leading bit. The leading bit stands in the exponent field and makes it k + 1, and a significand that has been rounded
up to the next power of two makes it k + 2 (R13). -/
def ofSignificand (fmt : FloatFmt) (neg : Bool) (k sig : ℕ) : fmt.Pattern :=
  BitVec.ofNat fmt.bits ((if neg then 2 ^ (fmt.bits - 1) else 0) + (k * 2 ^ fmt.fracBits + sig))

/-- The two cases of the leading bit, as fields. -/
theorem exists_fields_eq_significand {k sig : ℕ} (hlo : 2 ^ fmt.fracBits ≤ sig) (hhi : sig ≤ 2 ^ (fmt.fracBits + 1)) :
    ∃ e r, e ≤ k + 1 ∧ r < 2 ^ fmt.fracBits ∧ r % 2 = sig % 2 ∧ (2 ^ fmt.fracBits + r) * 2 ^ e = sig * 2 ^ k ∧
      ∀ neg, ofSignificand fmt neg k sig = ofFields fmt neg (e + 1) r := by
  have heven : 2 ^ fmt.fracBits % 2 = 0 := by cases fmt <;> rfl
  have hdouble := pow_succ 2 fmt.fracBits
  have hpos : 0 < 2 ^ fmt.fracBits := by positivity
  have hsplit (e r : ℕ) (h : k * 2 ^ fmt.fracBits + sig = (e + 1) * 2 ^ fmt.fracBits + r) (neg : Bool) :
      ofSignificand fmt neg k sig = ofFields fmt neg (e + 1) r := by rw [ofSignificand, h, ofFields]
  rcases hhi.lt_or_eq with hlt | rfl
  · obtain ⟨r, rfl⟩ := Nat.exists_eq_add_of_le hlo
    exact ⟨k, r, by omega, by omega, by omega, rfl, hsplit k r (by ring)⟩
  · exact ⟨k + 1, 0, le_rfl, hpos, by omega, by ring, hsplit (k + 1) 0 (by ring)⟩

section
variable {neg : Bool} {k sig : ℕ} (hk : k + 3 < 2 ^ fmt.expBits) (hlo : 2 ^ fmt.fracBits ≤ sig)
  (hhi : sig ≤ 2 ^ (fmt.fracBits + 1))
include hk hlo hhi

theorem isFinite_ofSignificand : Spec.isFinite fmt (ofSignificand fmt neg k sig) := by
  obtain ⟨e, r, he, hr, -, -, hfields⟩ := exists_fields_eq_significand (k := k) hlo hhi
  rw [isFinite_iff, hfields, floatExp_ofFields (by omega) hr]
  omega

/-- The fraction is even exactly when the significand is. -/
theorem floatFrac_ofSignificand_mod_two : floatFrac fmt (ofSignificand fmt neg k sig) % 2 = sig % 2 := by
  obtain ⟨e, r, he, hr, hparity, -, hfields⟩ := exists_fields_eq_significand (k := k) hlo hhi
  rw [hfields, floatFrac_ofFields (by omega) hr, hparity]

theorem floatVal_ofSignificand : floatVal fmt (ofSignificand fmt neg k sig) =
    if neg then -((sig * 2 ^ k * subnormalUnits fmt : ℕ) : ℤ) else (sig * 2 ^ k * subnormalUnits fmt : ℕ) := by
  obtain ⟨e, r, he, hr, -, hmag, hfields⟩ := exists_fields_eq_significand (k := k) hlo hhi
  rw [hfields, floatVal, floatSign_ofFields (by omega) hr, floatMag, floatExp_ofFields (by omega) hr,
    floatFrac_ofFields (by omega) hr, if_neg e.succ_ne_zero, Nat.add_sub_cancel, hmag]

end

/-- A number of at most `keep + 1` bits, shifted up until it has that many. -/
theorem shifted_significand_mem {n keep : ℕ} (hn : n ≠ 0) (h : n.log2 ≤ keep) :
    2 ^ keep ≤ n * 2 ^ (keep - n.log2) ∧ n * 2 ^ (keep - n.log2) ≤ 2 ^ (keep + 1) := by
  have hself := Nat.log2_self_le hn
  have hlt : n < 2 ^ (n.log2 + 1) := Nat.lt_log2_self
  constructor
  · calc 2 ^ keep = 2 ^ n.log2 * 2 ^ (keep - n.log2) := (pow_mul_pow_sub 2 h).symm
      _ ≤ n * 2 ^ (keep - n.log2) := Nat.mul_le_mul_right _ hself
  · calc n * 2 ^ (keep - n.log2) ≤ 2 ^ (n.log2 + 1) * 2 ^ (keep - n.log2) := Nat.mul_le_mul_right _ hlt.le
      _ = 2 ^ (keep + 1) := by rw [← pow_add]; congr 1; omega

/-! ## ENC of a binary32 operand -/

/-- Two finite patterns of any format have one value exactly when they are one number of float units (R160). -/
theorem floatValue_eq_floatValue_iff {fmt' : FloatFmt} {p : fmt.Pattern} {q : fmt'.Pattern} :
    Spec.floatValue fmt p = Spec.floatValue fmt' q ↔ floatVal fmt p = floatVal fmt' q := by
  rw [← Int.cast_inj (α := ℚ), floatVal_eq, floatVal_eq, mul_right_inj' floatUnit_cast_pos.ne']

/-- Binary64 holds every number of up to 53 bits at every exponent that a binary32 pattern can have. -/
theorem exists_floatVal_f64_eq (neg : Bool) {n j : ℕ} (hn : n < 2 ^ 53) (hlo : 52 ≤ j) (hhi : j ≤ 1500) :
    ∃ q : FloatFmt.f64.Pattern, Spec.isFinite .f64 q ∧
      floatVal .f64 q = if neg then -((n * 2 ^ j : ℕ) : ℤ) else (n * 2 ^ j : ℕ) := by
  rcases eq_or_ne n 0 with rfl | hzero
  · refine ⟨0, isFinite_iff.mpr (by decide), ?_⟩
    rw [Nat.zero_mul, Nat.cast_zero, neg_zero, ite_self]
    rfl
  · have hlog : n.log2 ≤ 52 := Nat.le_of_lt_succ ((Nat.log2_lt hzero).mpr hn)
    obtain ⟨hsiglo, hsighi⟩ := shifted_significand_mem hzero hlog
    have hk : j - (52 - n.log2) + 3 < 2 ^ FloatFmt.f64.expBits := by
      rw [FloatFmt.expBits]
      omega
    refine ⟨ofSignificand .f64 neg (j - (52 - n.log2)) (n * 2 ^ (52 - n.log2)),
      isFinite_ofSignificand hk hsiglo hsighi, ?_⟩
    have hmag : n * 2 ^ (52 - n.log2) * 2 ^ (j - (52 - n.log2)) * subnormalUnits .f64 = n * 2 ^ j := by
      rw [subnormalUnits, mul_one, mul_assoc, pow_mul_pow_sub 2 (by omega)]
    rw [floatVal_ofSignificand hk hsiglo hsighi, hmag]

/-- The magnitude of a binary32 pattern is a number of up to 24 bits at an exponent of its format. -/
theorem exists_floatMag_f32_eq (p : FloatFmt.f32.Pattern) :
    ∃ n j, n < 2 ^ 53 ∧ 52 ≤ j ∧ j ≤ 1500 ∧ floatMag .f32 p = n * 2 ^ j := by
  have hexp : floatExp .f32 p < 2 ^ 8 := Nat.mod_lt _ (by positivity)
  have hfrac : floatFrac .f32 p < 2 ^ 23 := Nat.mod_lt _ (by positivity)
  by_cases hzero : floatExp .f32 p = 0
  · exact ⟨floatFrac .f32 p, 925, by omega, by omega, by omega, by rw [floatMag, if_pos hzero, subnormalUnits]⟩
  · refine ⟨2 ^ 23 + floatFrac .f32 p, floatExp .f32 p - 1 + 925, by omega, by omega, by omega, ?_⟩
    rw [floatMag, if_neg hzero, subnormalUnits, FloatFmt.fracBits, mul_assoc, ← pow_add]

/-- Settles O33: the binary64 pattern is the same number of float units, and ENC of a finite operand takes no more of
it than that number. -/
theorem encodeWidensBinary32Exactly : Obligations.EncodeWidensBinary32Exactly := by
  intro t s h
  obtain ⟨n, j, hn, hlo, hhi, hmag⟩ := exists_floatMag_f32_eq (s.a.setWidth 32)
  obtain ⟨q, hq, hval⟩ := exists_floatVal_f64_eq (floatSign .f32 (s.a.setWidth 32)) hn hlo hhi
  rw [← hmag] at hval
  have hval : floatVal .f64 q = floatVal .f32 (s.a.setWidth 32) := hval
  refine ⟨q, _, hq, floatValue_eq_floatValue_iff.mpr hval, exec_enc_of_isFinite (fmt := .f32) rfl h, fun u hu => ?_⟩
  rw [exec_enc_of_isFinite (fmt := .f64) hu hq, hval]
  rfl

end Sys2Proof.Machine
end

section
/-! Rounding to a float format: the spacing of the format's values, and the nearest of them with ties to even
(00_scope.md R13, 42_float_codec.md R167, R168). -/

namespace Sys2Proof.Machine

variable {fmt : FloatFmt}

/-! ## The spacing of float values -/

/-- How far apart the values of a format are whose exponent field is k + 1. -/
def floatSpacing (fmt : FloatFmt) (k : ℕ) : ℚ :=
  2 ^ k * subnormalUnits fmt / floatUnit

theorem floatSpacing_pos (fmt : FloatFmt) (k : ℕ) : 0 < floatSpacing fmt k := by
  have hsub : (0 : ℚ) < subnormalUnits fmt := Nat.cast_pos.mpr (subnormalUnits_pos fmt)
  exact div_pos (mul_pos (by positivity) hsub) floatUnit_cast_pos

/-- The spacing in terms of the leading bit of a number over 2^f: 2^-F of it (R13). -/
theorem floatSpacing_eq {k f l : ℕ} (h : k + f + 1 = l + fmt.bias) :
    floatSpacing fmt k = 2 ^ l / 2 ^ fmt.fracBits / 2 ^ f := by
  have hunit : (floatUnit : ℚ) = subnormalUnits fmt * 2 ^ fmt.fracBits * 2 ^ (fmt.bias - 1) := by
    exact_mod_cast floatUnit_eq fmt
  have hsub : (subnormalUnits fmt : ℚ) ≠ 0 := Nat.cast_ne_zero.mpr (subnormalUnits_pos fmt).ne'
  have hbias : 1 ≤ fmt.bias := by cases fmt <;> decide
  have hpow : (2 : ℚ) ^ k * 2 ^ f = 2 ^ l * 2 ^ (fmt.bias - 1) := by
    rw [← pow_add, ← pow_add]
    congr 1
    omega
  rw [floatSpacing, hunit]
  field_simp
  linear_combination hpow

theorem floatValue_eq_div (p : fmt.Pattern) : Spec.floatValue fmt p = floatVal fmt p / floatUnit := by
  rw [floatVal_eq, mul_div_cancel_left₀ _ floatUnit_cast_pos.ne']

theorem abs_floatVal (p : fmt.Pattern) : |floatVal fmt p| = floatMag fmt p := by
  rw [Int.abs_eq_natAbs, natAbs_floatVal]

theorem floatMag_lt_or_dvd (k : ℕ) (p : fmt.Pattern) :
    floatMag fmt p < 2 ^ fmt.fracBits * (2 ^ k * subnormalUnits fmt) ∨ 2 ^ k * subnormalUnits fmt ∣ floatMag fmt p := by
  have hfrac : floatFrac fmt p < 2 ^ fmt.fracBits := Nat.mod_lt _ (by positivity)
  have hsub := subnormalUnits_pos fmt
  have hk : 1 ≤ 2 ^ k := Nat.one_le_two_pow
  unfold floatMag
  split_ifs with hzero
  · left
    calc floatFrac fmt p * subnormalUnits fmt < 2 ^ fmt.fracBits * subnormalUnits fmt := by gcongr
      _ ≤ 2 ^ fmt.fracBits * (2 ^ k * subnormalUnits fmt) := by gcongr; exact Nat.le_mul_of_pos_left _ hk
  · rw [mul_assoc]
    rcases Nat.lt_or_ge (floatExp fmt p - 1) k with hlt | hge
    · left
      calc (2 ^ fmt.fracBits + floatFrac fmt p) * (2 ^ (floatExp fmt p - 1) * subnormalUnits fmt)
          < (2 ^ fmt.fracBits + 2 ^ fmt.fracBits) * (2 ^ (floatExp fmt p - 1) * subnormalUnits fmt) := by gcongr
        _ = 2 ^ fmt.fracBits * (2 ^ (floatExp fmt p - 1 + 1) * subnormalUnits fmt) := by ring
        _ ≤ 2 ^ fmt.fracBits * (2 ^ k * subnormalUnits fmt) := by gcongr <;> omega
    · right
      exact (Nat.mul_dvd_mul_right (pow_dvd_pow 2 hge) _).mul_left _

/-- Every value of a format is below the first value of a spacing, in magnitude, or is a multiple of that spacing. -/
theorem abs_floatValue_lt_or_multiple (k : ℕ) (p : fmt.Pattern) :
    |Spec.floatValue fmt p| < 2 ^ fmt.fracBits * floatSpacing fmt k ∨
      ∃ m : ℤ, Spec.floatValue fmt p = m * floatSpacing fmt k := by
  have hunit := floatUnit_cast_pos
  rcases floatMag_lt_or_dvd k p with hlt | hdvd
  · left
    have hcast : (floatMag fmt p : ℚ) < 2 ^ fmt.fracBits * (2 ^ k * subnormalUnits fmt) := by exact_mod_cast hlt
    have habs : |(floatVal fmt p : ℚ)| = floatMag fmt p := by exact_mod_cast abs_floatVal p
    rw [floatValue_eq_div, floatSpacing, abs_div, abs_of_pos hunit, habs, ← mul_div_assoc]
    exact div_lt_div_of_pos_right hcast hunit
  · right
    obtain ⟨m, hm⟩ : ((2 ^ k * subnormalUnits fmt : ℕ) : ℤ) ∣ floatVal fmt p := by
      rwa [Int.natCast_dvd, natAbs_floatVal]
    refine ⟨m, ?_⟩
    rw [floatValue_eq_div, floatSpacing, hm]
    push_cast
    ring

/-! ## Nearest multiples -/

section
variable {w x : ℚ} {q : ℕ} (hw : 0 < w) (hq : |q * w - x| ≤ w / 2)
include hw

/-- Another multiple is as far from x as the spacing leaves. -/
theorem le_abs_mul_sub {m : ℤ} (hne : m ≠ q) : w - |q * w - x| ≤ |m * w - x| := by
  have hone : (1 : ℚ) ≤ |(m : ℚ) - q| := by exact_mod_cast Int.one_le_abs (sub_ne_zero.mpr hne)
  have hdist : w ≤ |m * w - q * w| := by
    rw [← sub_mul, abs_mul, abs_of_pos hw]
    exact le_mul_of_one_le_left hw.le hone
  have htri := abs_sub_le (m * w) x (q * w)
  rw [abs_sub_comm x] at htri
  linarith

include hq

theorem abs_sub_le_abs_mul_sub (m : ℤ) : |q * w - x| ≤ |m * w - x| := by
  rcases eq_or_ne m q with rfl | hne
  · rfl
  · have h := le_abs_mul_sub (x := x) hw hne
    linarith

/-- A multiple of w within half of w of x is at least as near to x as any other value v that is a multiple of w, or
that the multiple 2^M · w parts from x; and only at a tie is another as near. -/
theorem nearest_of_lt_or_multiple {M : ℕ} {v : ℚ} (hM : 2 ^ M * w ≤ x) (hv : v < 2 ^ M * w ∨ ∃ m : ℤ, v = m * w) :
    |q * w - x| ≤ |v - x| ∧ (v ≠ q * w → |v - x| = |q * w - x| → |q * w - x| = w / 2) := by
  rcases hv with hlt | ⟨m, rfl⟩
  · have hfar : |2 ^ M * w - x| < |v - x| := by
      rw [abs_of_nonpos (by linarith), abs_of_neg (by linarith)]
      linarith
    have hle := abs_sub_le_abs_mul_sub hw hq (2 ^ M)
    push_cast at hle
    exact ⟨hle.trans hfar.le, fun _ heq => absurd heq (hle.trans_lt hfar).ne'⟩
  · refine ⟨abs_sub_le_abs_mul_sub hw hq m, fun hne heq => ?_⟩
    have hfar := le_abs_mul_sub (x := x) hw (m := m) (q := q) (by rintro rfl; exact hne rfl)
    linarith

end

/-! ## Rounding a significand -/

/-- A number of at most `keep + 1` bits keeps its value. -/
theorem roundSignificand_of_le {keep n : ℕ} (h : n.log2 ≤ keep) :
    (roundSignificand keep n : ℚ) * (2 ^ n.log2 / 2 ^ keep) = n := by
  have hpow : (2 : ℚ) ^ keep = 2 ^ n.log2 * 2 ^ (keep - n.log2) := (pow_mul_pow_sub 2 h).symm
  simp only [roundSignificand, if_pos h]
  push_cast
  rw [hpow]
  field_simp

theorem roundSignificand_mem {keep n : ℕ} (hn : n ≠ 0) :
    2 ^ keep ≤ roundSignificand keep n ∧ roundSignificand keep n ≤ 2 ^ (keep + 1) := by
  rcases Nat.lt_or_ge keep n.log2 with hlt | hle
  · obtain ⟨-, -, -, hlo, hhi⟩ := roundSignificand_spec hlt
    exact ⟨hlo, hhi⟩
  · simp only [roundSignificand, if_pos hle]
    exact shifted_significand_mem hn hle

/-- The rounded significand is within half of the weight of its last bit, and even at a tie. -/
theorem roundSignificand_near (keep n : ℕ) :
    let w : ℚ := 2 ^ n.log2 / 2 ^ keep
    |roundSignificand keep n * w - n| ≤ w / 2 ∧
      (|roundSignificand keep n * w - n| = w / 2 → roundSignificand keep n % 2 = 0) := by
  intro w
  have hw : 0 < w := by positivity
  rcases Nat.lt_or_ge keep n.log2 with hlt | hle
  · obtain ⟨hlo, hhi, heven, -, -⟩ := roundSignificand_spec hlt
    have hweight : w = (2 ^ (n.log2 - keep) : ℕ) := by
      rw [Nat.cast_pow, Nat.cast_ofNat, pow_sub₀ _ two_ne_zero hlt.le]
      exact div_eq_mul_inv _ _
    generalize roundSignificand keep n = q at *
    generalize 2 ^ (n.log2 - keep) = d at *
    have hlo' : (2 * q * w : ℚ) ≤ 2 * n + w := by rw [hweight]; exact_mod_cast hlo
    have hhi' : (2 * n : ℚ) ≤ 2 * q * w + w := by rw [hweight]; exact_mod_cast hhi
    refine ⟨abs_le.mpr ⟨by linarith, by linarith⟩, fun htie => heven ?_⟩
    rcases abs_eq (by positivity) |>.mp htie with h | h
    · left
      have : (2 * q * w : ℚ) = 2 * n + w := by linarith
      rw [hweight] at this
      exact_mod_cast this
    · right
      have : (2 * n : ℚ) = 2 * q * w + w := by linarith
      rw [hweight] at this
      exact_mod_cast this
  · rw [roundSignificand_of_le hle, sub_self, abs_zero]
    exact ⟨by positivity, fun h => absurd h (by positivity)⟩

/-- The rounded significand against the number it rounds, in values: within half a spacing, and even at a tie. -/
theorem roundSignificand_near_spacing {n k f : ℕ} (hk : k + f + 1 = n.log2 + fmt.bias) :
    |roundSignificand fmt.fracBits n * floatSpacing fmt k - n / 2 ^ f| ≤ floatSpacing fmt k / 2 ∧
      (|roundSignificand fmt.fracBits n * floatSpacing fmt k - n / 2 ^ f| = floatSpacing fmt k / 2 →
        roundSignificand fmt.fracBits n % 2 = 0) := by
  have hf : (0 : ℚ) < 2 ^ f := by positivity
  have hnear := roundSignificand_near fmt.fracBits n
  rw [floatSpacing_eq hk, ← mul_div_assoc, ← sub_div, abs_div, abs_of_pos hf, div_right_comm,
    div_le_div_iff_of_pos_right hf, div_left_inj' hf.ne']
  exact hnear

/-- The leading bit of a number is the first value of its spacing. -/
theorem two_pow_mul_floatSpacing_le {n k f : ℕ} (hn : n ≠ 0) (hk : k + f + 1 = n.log2 + fmt.bias) :
    2 ^ fmt.fracBits * floatSpacing fmt k ≤ n / 2 ^ f := by
  have hself : (2 ^ n.log2 : ℚ) ≤ n := by exact_mod_cast Nat.log2_self_le hn
  rw [floatSpacing_eq hk, ← mul_div_assoc, mul_div_cancel₀ _ (by positivity)]
  gcongr

/-! ## Rounding to a format -/

section
variable {y : ℤ} {f : ℕ} (hy : y ≠ 0) (hlog : y.natAbs.log2 < 64) (hf : f < 64)
include hy hlog hf

/-- A nonzero number of up to 64 bits over at most 2^63 is far inside the normal numbers of both formats, so that its
pattern is made of its rounded significand (R13). -/
theorem roundToFloat_eq_ofSignificand : ∃ k, k + 3 < 2 ^ fmt.expBits ∧ k + f + 1 = y.natAbs.log2 + fmt.bias ∧
    roundToFloat fmt y f = ofSignificand fmt (decide (y < 0)) k (roundSignificand fmt.fracBits y.natAbs) := by
  obtain ⟨hlo, -⟩ := roundSignificand_mem (keep := fmt.fracBits) (Int.natAbs_ne_zero.mpr hy)
  have hbias : 64 ≤ fmt.bias ∧ 64 + fmt.bias + 1 < 2 ^ fmt.expBits := by cases fmt <;> decide
  obtain ⟨k, hk⟩ : ∃ k, y.natAbs.log2 + fmt.bias - f = k + 1 := ⟨y.natAbs.log2 + fmt.bias - f - 1, by omega⟩
  refine ⟨k, by omega, by omega, ?_⟩
  simp only [roundToFloat, if_neg (Int.natAbs_ne_zero.mpr hy), hk, ofSignificand, decide_eq_true_eq]
  congr 1
  rw [Nat.succ_mul]
  omega

/-- What rounding gives: a finite pattern, the value of the rounded significand, and its parity (R13). -/
theorem roundToFloat_spec : ∃ k, k + f + 1 = y.natAbs.log2 + fmt.bias ∧ Spec.isFinite fmt (roundToFloat fmt y f) ∧
    Spec.floatValue fmt (roundToFloat fmt y f) =
      y.sign * (roundSignificand fmt.fracBits y.natAbs * floatSpacing fmt k) ∧
    floatFrac fmt (roundToFloat fmt y f) % 2 = roundSignificand fmt.fracBits y.natAbs % 2 := by
  obtain ⟨hlo, hhi⟩ := roundSignificand_mem (keep := fmt.fracBits) (Int.natAbs_ne_zero.mpr hy)
  obtain ⟨k, hk, hexp, hround⟩ := roundToFloat_eq_ofSignificand (fmt := fmt) hy hlog hf
  rw [hround]
  refine ⟨k, hexp, isFinite_ofSignificand hk hlo hhi, ?_, floatFrac_ofSignificand_mod_two hk hlo hhi⟩
  rw [floatValue_eq_div, floatVal_ofSignificand hk hlo hhi, floatSpacing]
  rcases hy.lt_or_gt with hneg | hpos
  · rw [decide_eq_true hneg, if_pos rfl, Int.sign_eq_neg_one_of_neg hneg]
    push_cast
    ring
  · rw [decide_eq_false hpos.not_gt, if_neg Bool.false_ne_true, Int.sign_eq_one_of_pos hpos]
    push_cast
    ring

end

theorem sign_mul_natAbs_cast (y : ℤ) : (y.sign : ℚ) * y.natAbs = y := by
  rw [← Int.cast_natCast y.natAbs, ← Int.cast_mul, Int.sign_mul_natAbs]

theorem abs_sign_cast {y : ℤ} (hy : y ≠ 0) : |(y.sign : ℚ)| = 1 := by
  rw [← Int.cast_abs, Int.abs_sign_of_ne_zero hy, Int.cast_one]

/-- Rounding gives +0.0 for zero (R13). -/
theorem roundToFloat_zero (f : ℕ) : roundToFloat fmt 0 f = 0 := rfl

theorem isFinite_zero (fmt : FloatFmt) : Spec.isFinite fmt 0 :=
  isFinite_of_floatExp_eq_zero (by cases fmt <;> rfl)

theorem floatValue_zero (fmt : FloatFmt) : Spec.floatValue fmt 0 = 0 := by
  have hval : floatVal fmt 0 = 0 := by cases fmt <;> decide +kernel
  rw [floatValue_eq_div, hval, Int.cast_zero, zero_div]

/-- A value of the format with the sign of y taken off, against the spacing at y. -/
theorem exists_floatValue_eq_sign_mul {y : ℤ} (hy : y ≠ 0) (k : ℕ) (q : fmt.Pattern) :
    ∃ u : ℚ, Spec.floatValue fmt q = y.sign * u ∧
      (u < 2 ^ fmt.fracBits * floatSpacing fmt k ∨ ∃ m : ℤ, u = m * floatSpacing fmt k) := by
  have hsq : (y.sign : ℚ) * y.sign = 1 := by rw [← abs_mul_abs_self, abs_sign_cast hy, one_mul]
  refine ⟨y.sign * Spec.floatValue fmt q, by rw [← mul_assoc, hsq, one_mul], ?_⟩
  refine (abs_floatValue_lt_or_multiple k q).imp (fun hlt => ?_) fun ⟨m, hm⟩ => ⟨y.sign * m, ?_⟩
  · calc y.sign * Spec.floatValue fmt q ≤ |y.sign * Spec.floatValue fmt q| := le_abs_self _
      _ = |Spec.floatValue fmt q| := by rw [abs_mul, abs_sign_cast hy, one_mul]
      _ < 2 ^ fmt.fracBits * floatSpacing fmt k := hlt
  · rw [hm, Int.cast_mul, mul_assoc]

section
variable (fmt) {y : ℤ} {f : ℕ} (hlog : y.natAbs.log2 < 64) (hf : f < 64)
include hlog hf

theorem isFinite_roundToFloat : Spec.isFinite fmt (roundToFloat fmt y f) := by
  rcases eq_or_ne y 0 with rfl | hy
  · exact isFinite_zero fmt
  · obtain ⟨-, -, hfinite, -⟩ := roundToFloat_spec (fmt := fmt) hy hlog hf
    exact hfinite

/-- A number that fits the significand keeps its value (R168). -/
theorem floatValue_roundToFloat_of_le (hle : y.natAbs.log2 ≤ fmt.fracBits) :
    Spec.floatValue fmt (roundToFloat fmt y f) = y / 2 ^ f := by
  rcases eq_or_ne y 0 with rfl | hy
  · rw [roundToFloat_zero, floatValue_zero, Int.cast_zero, zero_div]
  · obtain ⟨k, hk, -, hval, -⟩ := roundToFloat_spec (fmt := fmt) hy hlog hf
    rw [hval, floatSpacing_eq hk, ← mul_div_assoc, roundSignificand_of_le hle, ← mul_div_assoc,
      sign_mul_natAbs_cast]

/-- No value of the format is nearer than the rounded one, and where another is as near the rounded fraction is even
(R13, R168). -/
theorem roundToFloat_nearest_even (q : fmt.Pattern) :
    |Spec.floatValue fmt (roundToFloat fmt y f) - y / 2 ^ f| ≤ |Spec.floatValue fmt q - y / 2 ^ f| ∧
    (Spec.floatValue fmt q ≠ Spec.floatValue fmt (roundToFloat fmt y f) →
      |Spec.floatValue fmt q - y / 2 ^ f| = |Spec.floatValue fmt (roundToFloat fmt y f) - y / 2 ^ f| →
      floatFrac fmt (roundToFloat fmt y f) % 2 = 0) := by
  rcases eq_or_ne y 0 with rfl | hy
  · rw [floatValue_roundToFloat_of_le fmt hlog hf (Nat.zero_le _), sub_self, abs_zero]
    exact ⟨abs_nonneg _, fun hne heq => absurd (sub_eq_zero.mp (abs_eq_zero.mp heq)) hne⟩
  · obtain ⟨k, hk, -, hval, hparity⟩ := roundToFloat_spec (fmt := fmt) hy hlog hf
    obtain ⟨u, hu, hpos⟩ := exists_floatValue_eq_sign_mul hy k q
    obtain ⟨hnear, heven⟩ := roundSignificand_near_spacing hk
    have htop := two_pow_mul_floatSpacing_le (Int.natAbs_ne_zero.mpr hy) hk
    have hy' : (y : ℚ) / 2 ^ f = y.sign * (y.natAbs / 2 ^ f) := by rw [← mul_div_assoc, sign_mul_natAbs_cast]
    have hsign (a b : ℚ) : |y.sign * a - y.sign * b| = |a - b| := by
      rw [← mul_sub, abs_mul, abs_sign_cast hy, one_mul]
    obtain ⟨hle, htie⟩ := nearest_of_lt_or_multiple (floatSpacing_pos fmt k) hnear htop hpos
    rw [hy', hval, hu, hsign, hsign, hparity]
    refine ⟨hle, fun hne heq => heven (htie ?_ heq)⟩
    rintro rfl
    exact hne rfl

end

end Sys2Proof.Machine
end

section
/-! DEC: one rounding to nearest for the types of up to 64 bits, a narrowing first for those of 128 bits, and ENC of
what DEC gives (42_float_codec.md R167 to R170). -/

namespace Sys2Proof.Machine

section
variable {t : CType} {fmt : FloatFmt} {s : State} {b : t.Pattern}

theorem exec_dec (hb : s.a.setWidth t.bits = b) :
    exec (.dec t fmt) s = .next { s with res := some ((decodeFloat t fmt b).setWidth 256), status := some 0 } := by
  subst hb
  rfl

/-! ## One rounding -/

/-- DEC rounds the operand itself where the type has up to 64 bits (R167). -/
theorem decodeFloat_of_width_ne (ht : t.width ≠ .w128) :
    decodeFloat t fmt b = roundToFloat fmt (intOf t b) t.fracBits := by
  obtain ⟨w, sg⟩ := t
  cases w
  case w128 => exact absurd rfl ht
  all_goals exact congrArg (fun c => roundToFloat fmt (intOf _ c) _) (BitVec.setWidth_eq b)

/-- DEC rounds what CONV narrows the operand to where the type has 128 bits (R167, R169). -/
theorem decodeFloat_w128 (fmt : FloatFmt) {sg : Bool} (b : (⟨.w128, sg⟩ : CType).Pattern) :
    decodeFloat ⟨.w128, sg⟩ fmt b = decodeFloat ⟨.w64, sg⟩ fmt (convert ⟨.w128, sg⟩ ⟨.w64, sg⟩ b) := by
  rw [decodeFloat_of_width_ne (t := ⟨.w64, sg⟩) (by simp)]
  rfl

theorem bits_le_of_width_ne (ht : t.width ≠ .w128) : t.bits ≤ 64 := by
  obtain ⟨w, sg⟩ := t
  cases w
  case w128 => exact absurd rfl ht
  all_goals simp [CType.bits, Width.bits]

theorem log2_natAbs_intOf_lt (t : CType) (b : t.Pattern) : (intOf t b).natAbs.log2 < t.bits := by
  rcases eq_or_ne (intOf t b).natAbs 0 with hzero | hne
  · rw [hzero]
    exact t.bits_pos
  · exact (Nat.log2_lt hne).mpr (magnitude_lt t b)

theorem log2_natAbs_intOf_lt_64 (ht : t.width ≠ .w128) : (intOf t b).natAbs.log2 < 64 :=
  (log2_natAbs_intOf_lt t b).trans_le (bits_le_of_width_ne ht)

theorem isFinite_decodeFloat_of_width_ne (ht : t.width ≠ .w128) : Spec.isFinite fmt (decodeFloat t fmt b) := by
  rw [decodeFloat_of_width_ne ht]
  exact isFinite_roundToFloat fmt (log2_natAbs_intOf_lt_64 ht) ((fracBits_lt_iff t).mpr ht)

/-- DEC never gives a NaN or an infinity (R168). -/
theorem isFinite_decodeFloat (t : CType) (fmt : FloatFmt) (b : t.Pattern) :
    Spec.isFinite fmt (decodeFloat t fmt b) := by
  by_cases ht : t.width = .w128
  · obtain ⟨w, sg⟩ := t
    cases ht
    rw [decodeFloat_w128]
    exact isFinite_decodeFloat_of_width_ne (by simp)
  · exact isFinite_decodeFloat_of_width_ne ht

/-- A number that fits the significand of the format keeps its value (R168). -/
theorem floatValue_decodeFloat (ht : t.width ≠ .w128) (hle : t.bits ≤ fmt.fracBits) :
    Spec.floatValue fmt (decodeFloat t fmt b) = Spec.value t b := by
  rw [decodeFloat_of_width_ne ht]
  exact floatValue_roundToFloat_of_le fmt (log2_natAbs_intOf_lt_64 ht) ((fracBits_lt_iff t).mpr ht)
    ((log2_natAbs_intOf_lt t b).le.trans hle)

end

/-- Settles O35: DEC rounds the integer reading over 2^F, and zero is read as 0. -/
theorem decodeRoundsToNearestEven : Obligations.DecodeRoundsToNearestEven := by
  intro t fmt s ht
  have hnearest := roundToFloat_nearest_even fmt (log2_natAbs_intOf_lt_64 (b := s.a.setWidth t.bits) ht)
    ((fracBits_lt_iff t).mpr ht)
  refine ⟨_, exec_dec rfl, isFinite_decodeFloat t fmt _, fun hzero => ?_, fun q _ => ?_, fun q _ => ?_⟩
  · rw [← value_zero t, value_eq_value_iff, intOf_zero] at hzero
    rw [decodeFloat_of_width_ne ht, hzero, roundToFloat_zero]
  · rw [decodeFloat_of_width_ne ht]
    exact (hnearest q).1
  · rw [decodeFloat_of_width_ne ht]
    exact (hnearest q).2

/-- The types of up to 32 bits are not those of 128. -/
theorem width_ne_of_bits_le {t : CType} (h : t.bits ≤ 32) : t.width ≠ .w128 := by
  obtain ⟨w, sg⟩ := t
  rintro rfl
  simp [CType.bits, Width.bits] at h

/-- Settles O36: binary64 has 52 fraction bits and binary32 has 23. -/
theorem decodeIsExactForNarrowTypes : Obligations.DecodeIsExactForNarrowTypes := by
  intro t fmt s h
  have hbits : t.bits ≤ 32 ∧ t.bits ≤ fmt.fracBits := by
    rcases h with ⟨rfl, h⟩ | h
    · exact ⟨h, h.trans (by decide)⟩
    · exact ⟨h.trans (by decide), h.trans (by cases fmt <;> decide)⟩
  exact ⟨_, exec_dec rfl, isFinite_decodeFloat t fmt _, floatValue_decodeFloat (width_ne_of_bits_le hbits.1) hbits.2⟩

/-! ## The types of 128 bits -/

/-- Moving a magnitude to another resolution keeps it on its side of a whole number (R203, R204). -/
theorem two_pow_le_rescale {i fa fb m : ℕ} (h : 2 ^ (i + fa) ≤ m) : 2 ^ (i + fb) ≤ rescale fa fb m := by
  unfold rescale
  split_ifs with hle
  · calc 2 ^ (i + fb) = 2 ^ (i + fa) * 2 ^ (fb - fa) := by rw [← pow_add]; congr 1; omega
      _ ≤ m * 2 ^ (fb - fa) := Nat.mul_le_mul_right _ h
  · rw [Nat.le_div_iff_mul_le (by positivity), ← pow_add]
    exact (Nat.pow_le_pow_right two_pos (by omega)).trans h

section
variable {ta tb : CType} {b : ta.Pattern}

/-- A value above those of the target type gives its MAX (R201, R205). -/
theorem convert_eq_maxPattern (h : 2 ^ tb.intBits ≤ Spec.value ta b) : convert ta tb b = maxPattern tb := by
  have hint : (2 : ℤ) ^ (tb.intBits + ta.fracBits) ≤ intOf ta b := by
    rw [Spec.value, le_div_iff₀ (by positivity), ← pow_add] at h
    exact_mod_cast h
  have hpos : 0 < intOf ta b := lt_of_lt_of_le (by positivity) hint
  have hmag : 2 ^ (tb.intBits + ta.fracBits) ≤ magnitude ta b := by
    rw [magnitude]
    zify
    rwa [abs_of_pos hpos]
  have hmin : b ≠ minPattern ta := by
    rintro rfl
    rw [intOf_minPattern] at hpos
    exact hpos.not_ge (minInt_le_zero ta)
  have hsign : isNegative ta b = false := by
    rw [← Bool.not_eq_true, isNegative_iff]
    exact hpos.not_gt
  have hlarge : maxMag tb < rescale ta.fracBits tb.fracBits (magnitude ta b) := by
    have hrescale := two_pow_le_rescale (fb := tb.fracBits) hmag
    have hmax := (maxMag_eq tb).trans (maxInt_eq tb)
    zify at hrescale ⊢
    omega
  rw [convert, if_neg hmin, hsign, signMagnitude, if_neg Bool.false_ne_true, if_pos hlarge, ite_self]

/-- A value below those of a signed target type gives its MIN (R201, R205). -/
theorem convert_eq_minPattern (hs : tb.signed = true) (h : Spec.value ta b ≤ -2 ^ tb.intBits) :
    convert ta tb b = minPattern tb := by
  have hint : intOf ta b ≤ -(2 : ℤ) ^ (tb.intBits + ta.fracBits) := by
    rw [Spec.value, div_le_iff₀ (by positivity), neg_mul, ← pow_add] at h
    exact_mod_cast h
  have hneg : intOf ta b < 0 := lt_of_le_of_lt hint (neg_neg_of_pos (by positivity))
  have hmag : 2 ^ (tb.intBits + ta.fracBits) ≤ magnitude ta b := by
    rw [magnitude]
    zify
    rw [abs_of_neg hneg]
    omega
  have hmax : b ≠ maxPattern ta := by
    rintro rfl
    rw [intOf_maxPattern] at hneg
    exact hneg.not_ge (zero_le_maxInt ta)
  have hbits : tb.bits - 1 = tb.intBits + tb.fracBits := by
    rw [tb.bits_eq, hs, Bool.toNat_true]
    omega
  rw [convert, if_neg hmax, (isNegative_iff ta b).mpr hneg, signMagnitude, if_pos rfl, hbits,
    if_pos (two_pow_le_rescale hmag), ite_self]

end

/-- The bounds of the 64-bit types, rounded to either format, are the powers of two they are at or next to (R169). -/
theorem floatValue_decodeFloat_bounds (fmt : FloatFmt) :
    Spec.floatValue fmt (decodeFloat ⟨.w64, true⟩ fmt (maxPattern ⟨.w64, true⟩)) = 2 ^ CType.intBits ⟨.w64, true⟩ ∧
    Spec.floatValue fmt (decodeFloat ⟨.w64, true⟩ fmt (minPattern ⟨.w64, true⟩)) = -2 ^ CType.intBits ⟨.w64, true⟩ ∧
    Spec.floatValue fmt (decodeFloat ⟨.w64, false⟩ fmt (maxPattern ⟨.w64, false⟩)) =
      2 ^ CType.intBits ⟨.w64, false⟩ := by
  cases fmt <;> decide +kernel

/-- DEC of a 128-bit type is DEC of the 64-bit type on the narrowed operand (R169). -/
theorem exec_dec_w128 {fmt : FloatFmt} {s : State} {sg : Bool} {c : (⟨.w64, sg⟩ : CType).Pattern}
    (hc : convert ⟨.w128, sg⟩ ⟨.w64, sg⟩ (s.a.setWidth 128) = c) :
    exec (.dec ⟨.w128, sg⟩ fmt) s = .next { s with
      res := some ((decodeFloat ⟨.w64, sg⟩ fmt c).setWidth 256), status := some 0 } := by
  subst hc
  rw [exec_dec rfl, decodeFloat_w128]
  rfl

/-- Settles O37: a value out of the range of the 64-bit type narrows to its bound. -/
theorem decodeOfWideTypesNarrowsFirst : Obligations.DecodeOfWideTypesNarrowsFirst := by
  intro fmt s
  obtain ⟨hmax, hmin, humax⟩ := floatValue_decodeFloat_bounds fmt
  have hsixteen : (2 : ℚ) ^ CType.intBits ⟨.w64, true⟩ = 16 := by norm_num [CType.intBits]
  have hthirtytwo : (2 : ℚ) ^ CType.intBits ⟨.w64, false⟩ = 32 := by norm_num [CType.intBits]
  rw [← hsixteen, ← hthirtytwo]
  exact ⟨fun sg => ⟨_, _, rfl, exec_dec_w128 rfl, fun u hu => exec_dec hu⟩,
    fun h => ⟨_, hmax, exec_dec_w128 (convert_eq_maxPattern h)⟩,
    fun h => ⟨_, hmin, exec_dec_w128 (convert_eq_minPattern rfl h)⟩,
    fun h => ⟨_, humax, exec_dec_w128 (convert_eq_maxPattern h)⟩⟩

/-! ## ENC of what DEC gives -/

/-- ENC of a value of the type is the pattern of that value, for the types of up to 64 bits: its two roundings together
move it by less than a grain (R170). -/
theorem encodeFinite_of_value {t : CType} {b : t.Pattern} {v : ℤ} (ht : t.width ≠ .w128)
    (hv : (v : ℚ) = floatUnit * Spec.value t b) : encodeFinite t v = b := by
  have hrange : Spec.clamp (Spec.value t b) (Spec.value t (minPattern t)) (Spec.value t (maxPattern t)) =
      Spec.value t b := by
    obtain ⟨hlo, hhi⟩ := intOf_mem t b
    rw [← intOf_minPattern, ← value_le_value_iff] at hlo
    rw [← intOf_maxPattern, ← value_le_value_iff] at hhi
    rw [Spec.clamp, if_neg hlo.not_gt, if_neg hhi.not_gt]
  have herror := abs_value_encodeFinite_sub_le t hv
  have hden : (0 : ℚ) < 2 ^ t.fracBits := by positivity
  have hsmall : (1 / 2 ^ 65 + 1 / 2 / 2 ^ t.fracBits : ℚ) < 1 / 2 ^ t.fracBits := by
    have hfrac := (fracBits_lt_iff t).mpr ht
    have hpow : (2 : ℚ) ^ (t.fracBits + 1) < 2 ^ 65 := pow_lt_pow_right₀ one_lt_two (by omega)
    have hhalf : (1 / 2 / 2 ^ t.fracBits : ℚ) = 1 / 2 ^ (t.fracBits + 1) := by rw [pow_succ, div_div, mul_comm]
    have hlt := one_div_lt_one_div_of_lt (by positivity) hpow
    rw [← add_halves (1 / 2 ^ t.fracBits : ℚ), div_right_comm 1 2, div_right_comm]
    linarith
  rw [hrange, encRoundError, if_neg ht] at herror
  have hlt := herror.trans_lt hsmall
  rw [Spec.value, Spec.value, ← sub_div, abs_div, abs_of_pos hden, div_lt_div_iff_of_pos_right hden] at hlt
  have hzero : |intOf t (encodeFinite t v) - intOf t b| < 1 := by exact_mod_cast hlt
  exact intOf_injective (sub_eq_zero.mp (Int.abs_lt_one_iff.mp hzero))

/-- A pattern of each type of 64 or 128 bits whose last bit DEC loses: a grain above 1.0, and a grain (R170). -/
def lostPattern (t : CType) : t.Pattern :=
  BitVec.ofNat t.bits (if t.width = .w128 then 1 else 0x0800000000000001)

theorem encodeFinite_decodeFloat_lostPattern_ne {t : CType} (h : 64 ≤ t.bits) :
    encodeFinite t (floatVal .f64 (decodeFloat t .f64 (lostPattern t))) ≠ lostPattern t := by
  obtain ⟨w, sg⟩ := t
  cases w
  case w64 | w128 => cases sg <;> decide +kernel
  all_goals exact absurd h (by simp [CType.bits, Width.bits])

/-- Settles O38: DEC of the six narrow types is exact, so that ENC finds the value again; the others lose a bit. -/
theorem roundTripHoldsForNarrowTypesOnly : Obligations.RoundTripHoldsForNarrowTypesOnly := by
  refine ⟨fun t s ht => ⟨_, exec_dec rfl, fun u hu => ?_⟩, fun t ht => ⟨lostPattern t, fun s hs =>
    ⟨_, exec_dec hs, fun u hu => ⟨_, encodeFinite_decodeFloat_lostPattern_ne ht, ?_⟩⟩⟩, fun s hs => ?_, fun u hu => ?_⟩
  · have hwidth := width_ne_of_bits_le ht
    have hval : Spec.floatValue .f64 (decodeFloat t .f64 (s.a.setWidth t.bits)) = Spec.value t (s.a.setWidth t.bits) :=
      floatValue_decodeFloat hwidth (ht.trans (by decide))
    rw [exec_enc_of_isFinite (fmt := .f64) hu (isFinite_decodeFloat t .f64 _),
      encodeFinite_of_value hwidth ((floatVal_eq _ _).trans (congrArg _ hval))]
  · exact exec_enc_of_isFinite (fmt := .f64) hu (isFinite_decodeFloat t .f64 _)
  · rw [exec_dec (t := ⟨.w64, true⟩) hs]
    rfl
  · have hone : encodeFinite ⟨.w64, true⟩ (floatVal .f64 (0x3FF0000000000000 : BitVec 64)) = 0x0800000000000000 := by
      decide +kernel
    rw [exec_enc_of_isFinite (fmt := .f64) hu (isFinite_iff.mpr (by decide)), hone]
    rfl

end Sys2Proof.Machine
end

section
/-! CONV: the bounds go to the bounds, and any other value is truncated toward zero to the target's grain and clamped;
a value the target holds is therefore kept (43_cross_precision.md R201 to R210). -/

namespace Sys2Proof.Machine

/-! ## Truncation toward zero -/

/-- The integer next to a rational number on the side of zero (R204, R209). -/
def truncate (x : ℚ) : ℤ :=
  if 0 ≤ x then ⌊x⌋ else ⌈x⌉

theorem truncate_intCast (n : ℤ) : truncate n = n := by
  rw [truncate, Int.floor_intCast, Int.ceil_intCast, ite_self]

theorem truncate_of_nonneg {x : ℚ} (h : 0 ≤ x) : truncate x = ⌊x⌋ :=
  if_pos h

theorem truncate_neg_of_nonneg {x : ℚ} (h : 0 ≤ x) : truncate (-x) = -⌊x⌋ := by
  rcases h.eq_or_lt with rfl | hpos
  · simp [truncate]
  · rw [truncate, if_neg (by linarith), Int.ceil_neg]

/-- Both shifts of a magnitude are one division: the left shift is exact, the right shift drops bits (R203, R204). -/
theorem rescale_eq_div (fa fb m : ℕ) : rescale fa fb m = m * 2 ^ fb / 2 ^ fa := by
  unfold rescale
  split_ifs with hle
  · rw [← Nat.sub_add_cancel hle, pow_add, ← mul_assoc, Nat.mul_div_cancel _ (by positivity), Nat.add_sub_cancel]
  · have hsplit : 2 ^ fa = 2 ^ (fa - fb) * 2 ^ fb := by rw [← pow_add]; congr 1; omega
    rw [hsplit, Nat.mul_div_mul_right _ _ (by positivity)]

theorem rescale_eq_floor (fa fb m : ℕ) : (rescale fa fb m : ℤ) = ⌊(m : ℚ) / 2 ^ fa * 2 ^ fb⌋ := by
  have h := Rat.floor_natCast_div_natCast (m * 2 ^ fb) (2 ^ fa)
  push_cast at h
  rw [rescale_eq_div, div_mul_eq_mul_div, h]
  push_cast
  rfl

/-! ## Values in the range of a type -/

theorem value_mem (t : CType) (b : t.Pattern) :
    Spec.value t (minPattern t) ≤ Spec.value t b ∧ Spec.value t b ≤ Spec.value t (maxPattern t) := by
  rw [value_le_value_iff, value_le_value_iff, intOf_minPattern, intOf_maxPattern]
  exact intOf_mem t b

theorem clamp_of_mem {x lo hi : ℚ} (hlo : lo ≤ x) (hhi : x ≤ hi) : Spec.clamp x lo hi = x := by
  rw [Spec.clamp, if_neg hlo.not_gt, if_neg hhi.not_gt]

/-- A pattern's value counts its grains (R47, R51). -/
theorem value_mul_two_pow (t : CType) (b : t.Pattern) : Spec.value t b * 2 ^ t.fracBits = intOf t b :=
  div_mul_cancel₀ _ (by positivity)

theorem maxPattern_ne_minPattern (t : CType) : maxPattern t ≠ minPattern t := by
  rw [Ne, ← intOf_inj, intOf_maxPattern, intOf_minPattern]
  exact ((minInt_le_zero t).trans_lt (one_le_maxInt t)).ne'

/-! ## What CONV gives -/

section
variable {ta tb : CType} {b : ta.Pattern} {c : tb.Pattern} {s : State}

theorem exec_conv (hb : s.a.setWidth ta.bits = b) :
    exec (.conv ta tb) s = .next { s with res := some ((convert ta tb b).setWidth 256), status := some 0 } := by
  subst hb
  rfl

theorem convert_minPattern (ta tb : CType) : convert ta tb (minPattern ta) = minPattern tb :=
  if_pos rfl

theorem convert_maxPattern (ta tb : CType) : convert ta tb (maxPattern ta) = maxPattern tb := by
  rw [convert, if_neg (maxPattern_ne_minPattern ta), if_pos rfl]

/-- The shifted magnitude with the operand's sign is the operand's value in grains of the target, truncated toward zero
(R202 to R204). -/
theorem signed_rescale_eq_truncate (f : ℕ) (b : ta.Pattern) :
    (if isNegative ta b then -(rescale ta.fracBits f (magnitude ta b) : ℤ) else rescale ta.fracBits f (magnitude ta b)) =
      truncate (Spec.value ta b * 2 ^ f) := by
  have hnonneg : (0 : ℚ) ≤ magnitude ta b / 2 ^ ta.fracBits * 2 ^ f := by positivity
  rw [Spec.value, intOf_eq_magnitude, rescale_eq_floor]
  split_ifs
  · rw [← truncate_neg_of_nonneg hnonneg, Int.cast_neg, Int.cast_natCast, neg_div, neg_mul]
  · rw [← truncate_of_nonneg hnonneg, Int.cast_natCast]

variable (hs : ta.signed = tb.signed) (hmin : b ≠ minPattern ta) (hmax : b ≠ maxPattern ta)
include hs hmin hmax

/-- CONV of any pattern but the bounds truncates its value to the grain of the target and clamps it (R206). -/
theorem value_convert : Spec.value tb (convert ta tb b) =
    Spec.clamp (truncate (Spec.value ta b * 2 ^ tb.fracBits) / 2 ^ tb.fracBits)
      (Spec.value tb (minPattern tb)) (Spec.value tb (maxPattern tb)) := by
  have hsigned : isNegative ta b = true → tb.signed = true := fun h => hs ▸ (Bool.and_eq_true _ _ ▸ h).1
  rw [convert, if_neg hmin, if_neg hmax, value_signMagnitude tb hsigned, ← signed_rescale_eq_truncate]
  split_ifs <;> push_cast <;> rfl

/-- A value of whole grains of the target, in its range, is kept. -/
theorem value_convert_of_grains {n : ℤ} (hn : Spec.value ta b * 2 ^ tb.fracBits = n)
    (hlo : Spec.value tb (minPattern tb) ≤ Spec.value ta b) (hhi : Spec.value ta b ≤ Spec.value tb (maxPattern tb)) :
    Spec.value tb (convert ta tb b) = Spec.value ta b := by
  rw [value_convert hs hmin hmax, hn, truncate_intCast, ← hn, mul_div_cancel_right₀ _ (by positivity),
    clamp_of_mem hlo hhi]

/-- A value that a pattern of the target has converts to that pattern. -/
theorem convert_eq_of_value_eq (hc : Spec.value tb c = Spec.value ta b) : convert ta tb b = c := by
  obtain ⟨hlo, hhi⟩ := hc ▸ value_mem tb c
  have hkeep := value_convert_of_grains hs hmin hmax (hc ▸ value_mul_two_pow tb c) hlo hhi
  exact intOf_injective (value_eq_value_iff.mp (hkeep.trans hc.symm))

end

/-- Settles O39: the bounds are taken before any shift. -/
theorem convertMapsBoundsToBounds : Obligations.ConvertMapsBoundsToBounds := by
  intro ta tb s _
  exact ⟨fun h => by rw [exec_conv h, convert_minPattern], fun h => by rw [exec_conv h, convert_maxPattern]⟩

theorem convert_self (t : CType) (b : t.Pattern) : convert t t b = b := by
  by_cases hmin : b = minPattern t
  · rw [hmin, convert_minPattern]
  by_cases hmax : b = maxPattern t
  · rw [hmax, convert_maxPattern]
  exact convert_eq_of_value_eq rfl hmin hmax rfl

/-- Settles O41: the type holds each of its values. -/
theorem convertToSameTypeIsIdentity : Obligations.ConvertToSameTypeIsIdentity := by
  intro t s
  rw [exec_conv rfl, convert_self]

/-! ## Widening -/

section
variable {ta tb : CType} {b : ta.Pattern} (hs : ta.signed = tb.signed) (hw : ta.bits < tb.bits)
include hs hw

/-- The wider type of a signedness has more bits in both fields (R9, R203). -/
theorem fields_le_of_bits_lt : ta.intBits ≤ tb.intBits ∧ ta.fracBits ≤ tb.fracBits := by
  obtain ⟨wa, sg⟩ := ta
  obtain ⟨wb, sg'⟩ := tb
  cases hs
  revert hw
  cases wa <;> cases wb <;> cases sg <;> decide

theorem value_minPattern_le_of_widening : Spec.value tb (minPattern tb) ≤ Spec.value ta (minPattern ta) := by
  have hpow : (2 : ℚ) ^ ta.intBits ≤ 2 ^ tb.intBits := pow_le_pow_right₀ one_le_two (fields_le_of_bits_lt hs hw).1
  rw [value_minPattern, value_minPattern, hs]
  split_ifs <;> linarith

theorem value_maxPattern_le_of_widening : Spec.value ta (maxPattern ta) ≤ Spec.value tb (maxPattern tb) := by
  obtain ⟨hint, hfrac⟩ := fields_le_of_bits_lt hs hw
  rw [value_maxPattern, value_maxPattern]
  gcongr <;> exact one_le_two

/-- A value of the narrower type is a whole number of grains of the wider type, in its range (R203, R209). -/
theorem value_convert_of_widening (hmin : b ≠ minPattern ta) (hmax : b ≠ maxPattern ta) :
    Spec.value tb (convert ta tb b) = Spec.value ta b := by
  have hgrains : Spec.value ta b * 2 ^ tb.fracBits = (intOf ta b * 2 ^ (tb.fracBits - ta.fracBits) : ℤ) := by
    rw [← Nat.add_sub_cancel' (fields_le_of_bits_lt hs hw).2, pow_add, ← mul_assoc, value_mul_two_pow,
      Nat.add_sub_cancel_left]
    norm_cast
  obtain ⟨hlo, hhi⟩ := value_mem ta b
  exact value_convert_of_grains hs hmin hmax hgrains ((value_minPattern_le_of_widening hs hw).trans hlo)
    (hhi.trans (value_maxPattern_le_of_widening hs hw))

/-- Only MIN widens to MIN: a value kept is above it, or is that of MIN itself. -/
theorem convert_ne_minPattern_of_widening (hmin : b ≠ minPattern ta) (hmax : b ≠ maxPattern ta) :
    convert ta tb b ≠ minPattern tb := by
  intro h
  have hle : Spec.value ta b ≤ Spec.value ta (minPattern ta) := by
    rw [← value_convert_of_widening hs hw hmin hmax, h]
    exact value_minPattern_le_of_widening hs hw
  exact hmin (intOf_injective (value_eq_value_iff.mp (hle.antisymm (value_mem ta b).1)))

theorem convert_ne_maxPattern_of_widening (hmin : b ≠ minPattern ta) (hmax : b ≠ maxPattern ta) :
    convert ta tb b ≠ maxPattern tb := by
  intro h
  have hle : Spec.value ta (maxPattern ta) ≤ Spec.value ta b := by
    rw [← value_convert_of_widening hs hw hmin hmax, h]
    exact value_maxPattern_le_of_widening hs hw
  exact hmax (intOf_injective (value_eq_value_iff.mp ((value_mem ta b).2.antisymm hle)))

/-- Narrowing undoes widening: the bounds come back by the bounds, any other pattern by its kept value (R209). -/
theorem convert_convert_of_widening : convert tb ta (convert ta tb b) = b := by
  by_cases hmin : b = minPattern ta
  · rw [hmin, convert_minPattern, convert_minPattern]
  by_cases hmax : b = maxPattern ta
  · rw [hmax, convert_maxPattern, convert_maxPattern]
  exact convert_eq_of_value_eq hs.symm (convert_ne_minPattern_of_widening hs hw hmin hmax)
    (convert_ne_maxPattern_of_widening hs hw hmin hmax) (value_convert_of_widening hs hw hmin hmax).symm

end

/-- Settles O40: a widening holds the value exactly, and the narrowing clause is the rule for any two types. -/
theorem convertPreservesValues : Obligations.ConvertPreservesValues := by
  intro ta tb s hs a
  refine ⟨convert ta tb a, exec_conv rfl, value_convert_of_widening hs, fun _ => value_convert hs, fun hw u hu => ?_⟩
  rw [exec_conv hu, convert_convert_of_widening hs hw]

end Sys2Proof.Machine
end

section
/-! Saturating arithmetic, equality and ordering: the integer a result reads as, and the order of values
(44_saturating_arith.md R231 to R240). -/

namespace Sys2Proof.Machine

/-! ## The saturating writes of sums -/

theorem clampInt_eq_max_min {x lo hi : ℤ} (h : lo ≤ hi) : clampInt x lo hi = max lo (min hi x) := by
  unfold clampInt
  split_ifs <;> omega

/-- The saturating write has the value of the integer in grains, clamped to the values of the type (R230). -/
theorem value_saturate (t : CType) (y : ℤ) :
    Spec.value t (saturate t y) =
      Spec.clamp (y / 2 ^ t.fracBits) (Spec.value t (minPattern t)) (Spec.value t (maxPattern t)) := by
  have hden : (0 : ℚ) < 2 ^ t.fracBits := by positivity
  have hgrains (b : t.Pattern) : (intOf t b : ℚ) = 2 ^ t.fracBits * Spec.value t b := by
    rw [mul_comm, value_mul_two_pow]
  rw [Spec.value, intOf_saturate, ← intOf_minPattern, ← intOf_maxPattern,
    clampInt_cast hden (mul_div_cancel₀ _ hden.ne').symm (hgrains _) (hgrains _), mul_div_cancel_left₀ _ hden.ne']

/-- Settles O44: the sum of the values is the sum of the integer readings in grains. -/
theorem addSaturates : Obligations.AddSaturates := by
  intro t s
  refine ⟨_, rfl, ?_⟩
  rw [value_saturate, Int.cast_add, add_div]
  rfl

/-- Settles O45: the difference of the values is the difference of the integer readings in grains. -/
theorem subtractSaturates : Obligations.SubtractSaturates := by
  intro t s
  refine ⟨_, rfl, ?_⟩
  rw [value_saturate, Int.cast_sub, sub_div]
  rfl

/-! ## Negation -/

theorem value_negate (t : CType) (a : t.Pattern) :
    Spec.value t (negate t a) =
      Spec.clamp (-Spec.value t a) (Spec.value t (minPattern t)) (Spec.value t (maxPattern t)) := by
  rw [negate_eq, value_saturate, Int.cast_neg, neg_div]
  rfl

/-- Settles O43: the negated integer reading is written with saturation; the patterns are the branches of NEG. -/
theorem negateSaturates : Obligations.NegateSaturates := by
  intro t s
  refine ⟨_, rfl, value_negate t _, fun hs hmin => ?_, fun hs hmin => ?_, fun hs => ?_⟩
  · exact (if_pos hs).trans (if_pos hmin)
  · rw [BitVec.neg_eq_not_add]
    exact (if_pos hs).trans (if_neg hmin)
  · exact if_neg (Bool.eq_false_iff.mp hs)

section
variable {t : CType} (hs : t.signed = true)
include hs

/-- A signed type has one more value below zero than above (R49, R50). -/
theorem minInt_of_signed : minInt t = -maxInt t - 1 := by
  rw [minInt, maxInt, if_pos hs, if_pos hs]
  ring

theorem intOf_minPattern_add_one : intOf t (minPattern t + 1) = -maxInt t := by
  have hmin := minInt_of_signed hs
  have hmax := zero_le_maxInt t
  have hpattern : minPattern t + 1 = bitsOf t (-maxInt t) := by
    have hgrain : (1 : t.Pattern) = bitsOf t 1 := (BitVec.ofInt_natCast t.bits 1).symm
    rw [minPattern_eq, hgrain, bitsOf, bitsOf, ← BitVec.ofInt_add, hmin, sub_add_cancel, bitsOf]
  rw [hpattern, intOf_bitsOf (by omega) (by omega)]

theorem intOf_negate_minPattern : intOf t (negate t (minPattern t)) = maxInt t := by
  rw [negate, if_pos hs, if_pos rfl, intOf_maxPattern]

theorem intOf_negate_of_ne_minPattern {a : t.Pattern} (ha : a ≠ minPattern t) : intOf t (negate t a) = -intOf t a := by
  have hmin := minInt_of_signed hs
  have hmem := intOf_mem t a
  have hne : intOf t a ≠ minInt t := by rwa [← intOf_minPattern, Ne, intOf_inj]
  rw [negate_eq, intOf_saturate, clampInt_of_mem (by omega) (by omega)]

/-- NEG never gives MIN of a signed type: MAX is the furthest from zero that it reaches (R231). -/
theorem negate_ne_minPattern (a : t.Pattern) : negate t a ≠ minPattern t := by
  have hmin := minInt_of_signed hs
  have hmem := intOf_mem t a
  rw [Ne, ← intOf_inj, negate_eq, intOf_saturate, intOf_minPattern, clampInt_eq_max_min (minInt_le_maxInt t)]
  omega

end

/-- Settles O50: NEG negates the integer reading of every pattern but MIN, and never gives MIN. -/
theorem negateUndoesItselfExceptAtMin : Obligations.NegateUndoesItselfExceptAtMin := by
  intro t hs
  refine ⟨fun a => ?_, fun a b hb => ?_⟩
  · rw [← intOf_inj, intOf_negate_of_ne_minPattern hs (negate_ne_minPattern hs a)]
    split_ifs with ha
    · rw [ha, intOf_negate_minPattern hs, intOf_minPattern_add_one hs]
    · rw [intOf_negate_of_ne_minPattern hs ha, neg_neg]
  · rw [intOf_negate_of_ne_minPattern hs hb, sub_eq_add_neg]

/-! ## Multiplication -/

/-- The magnitude MUL takes of an operand, by its integer reading (R234). -/
theorem mulMagnitude_cast (t : CType) (a : t.Pattern) :
    (mulMagnitude t a : ℤ) =
      if t.signed = true ∧ intOf t a = -2 ^ (t.bits - 1) then 2 ^ (t.bits - 1) - 1 else |intOf t a| := by
  unfold mulMagnitude
  by_cases hs : t.signed = true
  · have hmin : a = minPattern t ↔ intOf t a = -2 ^ (t.bits - 1) := by
      rw [← intOf_inj, intOf_minPattern, minInt, if_pos hs]
    simp only [hs, Bool.true_and, beq_iff_eq, true_and, hmin]
    split_ifs
    · rw [maxMag_eq, maxInt, if_pos hs]
    · exact Int.natCast_natAbs _
  · simp only [hs, Bool.false_and, Bool.false_eq_true, false_and, if_false]
    exact Int.natCast_natAbs _

theorem mulMagnitude_zero (t : CType) : mulMagnitude t 0 = 0 := by
  have hpow : (0 : ℤ) < 2 ^ (t.bits - 1) := by positivity
  zify
  rw [mulMagnitude_cast, intOf_zero, abs_zero, if_neg fun h => by omega]

/-- The product of the magnitudes in grains, rounded down (R235). -/
def productMagnitude (t : CType) (a b : t.Pattern) : ℕ :=
  mulMagnitude t a * mulMagnitude t b / 2 ^ t.fracBits

/-- The product MUL clamps: the rescaled magnitude with the sign of the product (R236). -/
def signedProduct (t : CType) (a b : t.Pattern) : ℤ :=
  if isNegative t a ^^ isNegative t b then -(productMagnitude t a b : ℤ) else productMagnitude t a b

/-- A sign is only applied to a signed type (R234). -/
theorem signed_of_isNegative_xor {t : CType} {a b : t.Pattern} (h : (isNegative t a ^^ isNegative t b) = true) :
    t.signed = true := by
  rw [isNegative, isNegative, ← Bool.and_xor_distrib_left, Bool.and_eq_true] at h
  exact h.1

/-- MUL reads as its product clamped to the type, by either datapath (R235, R236, R239). -/
theorem intOf_multiply (t : CType) (a b : t.Pattern) :
    intOf t (multiply t a b) = clampInt (signedProduct t a b) (minInt t) (maxInt t) := by
  rw [multiply, intOf_signMagnitude signed_of_isNegative_xor,
    rescaledProduct_eq (mulMagnitude_lt t a) (mulMagnitude_lt t b)]
  rfl

theorem isNegative_xor_iff (t : CType) (a b : t.Pattern) :
    (isNegative t a ^^ isNegative t b) = true ↔
      (intOf t a < 0 ∧ 0 ≤ intOf t b) ∨ (0 ≤ intOf t a ∧ intOf t b < 0) := by
  rw [bne_iff_ne, Ne, Bool.eq_iff_iff, isNegative_iff, isNegative_iff]
  omega

/-- The bounds of the clamp: MAX for a product above zero, and MIN for one below, where the type is signed (R236). -/
theorem intOf_multiply_eq_ite (t : CType) (a b : t.Pattern) : intOf t (multiply t a b) =
    if (intOf t a < 0 ∧ 0 ≤ intOf t b) ∨ (0 ≤ intOf t a ∧ intOf t b < 0) then
      -min (productMagnitude t a b : ℤ) (2 ^ (t.bits - 1))
    else min (productMagnitude t a b : ℤ) (maxInt t) := by
  have hmin := minInt_le_zero t
  have hmax := zero_le_maxInt t
  rw [intOf_multiply, clampInt_eq_max_min (minInt_le_maxInt t), signedProduct]
  simp only [← isNegative_xor_iff]
  split_ifs with hneg
  · have hbound : minInt t = -2 ^ (t.bits - 1) := if_pos (signed_of_isNegative_xor hneg)
    omega
  · omega

/-- Settles O46: the quotient of the statement is the model's, its magnitudes being those MUL takes. -/
theorem multiplyRescalesAndSaturates : Obligations.MultiplyRescalesAndSaturates := by
  intro t s a b ma mb q
  refine ⟨_, rfl, ?_⟩
  have hq : (productMagnitude t (certumA t s) (certumB t s) : ℤ) = q := by
    rw [productMagnitude, Int.natCast_ediv, Nat.cast_mul, mulMagnitude_cast, mulMagnitude_cast, Nat.cast_pow]
    rfl
  rw [intOf_multiply_eq_ite, hq]
  rfl

theorem signedProduct_comm (t : CType) (a b : t.Pattern) : signedProduct t a b = signedProduct t b a := by
  rw [signedProduct, signedProduct, productMagnitude, productMagnitude, Bool.xor_comm, Nat.mul_comm]

theorem multiply_comm (t : CType) (a b : t.Pattern) : multiply t a b = multiply t b a := by
  rw [← intOf_inj, intOf_multiply, intOf_multiply, signedProduct_comm]

/-- Settles O49: the operands of the one command are those of the other, exchanged. -/
theorem addAndMultiplyCommute : Obligations.AddAndMultiplyCommute := by
  intro t s u ha hb
  refine ⟨_, _, rfl, ?_, rfl, ?_⟩
  · simp only [exec, execAdd, certumA, certumB, ha, hb, add_comm, State.complete_eq]
  · simp only [exec, execMul, certumA, certumB, ha, hb, multiply_comm t, State.complete_eq]

/-! ## Multiplication of a negated operand -/

/-- The operand MUL multiplies: the magnitude it takes, with the operand's sign (R234). -/
def mulOperand (t : CType) (a : t.Pattern) : ℤ :=
  if isNegative t a then -(mulMagnitude t a : ℤ) else mulMagnitude t a

theorem mulOperand_of_ne_minPattern {t : CType} {a : t.Pattern} (ha : a ≠ minPattern t) : mulOperand t a = intOf t a := by
  have hmag : mulMagnitude t a = magnitude t a := by simp [mulMagnitude, ha]
  rw [mulOperand, hmag, intOf_eq_magnitude]

/-- The product of the operands is truncated toward zero (R235, R240). -/
theorem signedProduct_eq_tdiv (t : CType) (a b : t.Pattern) :
    signedProduct t a b = (mulOperand t a * mulOperand t b).tdiv (2 ^ t.fracBits) := by
  have hdiv : (productMagnitude t a b : ℤ) = ((mulMagnitude t a : ℤ) * mulMagnitude t b).tdiv (2 ^ t.fracBits) := by
    rw [productMagnitude, Int.ofNat_tdiv, Nat.cast_mul, Nat.cast_pow, Nat.cast_ofNat]
  unfold signedProduct mulOperand
  cases isNegative t a <;> cases isNegative t b <;> simp [hdiv]

theorem natAbs_signedProduct (t : CType) (a b : t.Pattern) : (signedProduct t a b).natAbs = productMagnitude t a b := by
  unfold signedProduct
  split_ifs <;> simp

theorem signedProduct_negate {t : CType} {a : t.Pattern} (hs : t.signed = true) (ha : a ≠ minPattern t)
    (b : t.Pattern) : signedProduct t (negate t a) b = -signedProduct t a b := by
  rw [signedProduct_eq_tdiv, signedProduct_eq_tdiv, mulOperand_of_ne_minPattern (negate_ne_minPattern hs a),
    mulOperand_of_ne_minPattern ha, intOf_negate_of_ne_minPattern hs ha, neg_mul, Int.neg_tdiv]

/-- Operands of opposite signs, or of which one is zero, have no product above zero. -/
theorem signedProduct_nonpos {t : CType} {a b : t.Pattern} (hsign : intOf t a < 0 ↔ 0 < intOf t b) :
    signedProduct t a b ≤ 0 := by
  unfold signedProduct
  split_ifs with hneg
  · omega
  · have hb : b = 0 := by
      rw [isNegative_xor_iff] at hneg
      rw [← intOf_inj, intOf_zero]
      omega
    rw [productMagnitude, hb, mulMagnitude_zero, Nat.mul_zero, Nat.zero_div, Nat.cast_zero]

theorem intOf_negate_multiply_negate {t : CType} {a : t.Pattern} (hs : t.signed = true) (ha : a ≠ minPattern t)
    (b : t.Pattern) : intOf t (negate t (multiply t (negate t a) b)) =
      clampInt (-clampInt (-signedProduct t a b) (minInt t) (maxInt t)) (minInt t) (maxInt t) := by
  rw [negate_eq, intOf_saturate, intOf_multiply, signedProduct_negate hs ha]

/-- Settles O51: the product changes its sign with the operand. Up to MAXmag the clamp keeps both products; beyond it,
it takes the one below zero to MIN and the other to MAX, whose negation is MIN + GRAIN. -/
theorem multiplyOfNegatedOperand : Obligations.MultiplyOfNegatedOperand := by
  intro t a b hs ha q
  have hq : (signedProduct t a b).natAbs = q := natAbs_signedProduct t a b
  have hclamp (y : ℤ) := clampInt_eq_max_min (x := y) (minInt_le_maxInt t)
  have hproduct := intOf_multiply t a b
  have hnegated := intOf_negate_multiply_negate hs ha b
  rw [hclamp] at hproduct
  rw [hclamp, hclamp] at hnegated
  have hmin := minInt_of_signed hs
  have hmax := zero_le_maxInt t
  have hmag := maxMag_eq t
  refine ⟨fun hle => ?_, fun hlt hsign => ?_⟩
  · rw [← intOf_inj]
    omega
  · have hnonpos := signedProduct_nonpos hsign
    rw [← intOf_inj, ← intOf_inj, intOf_minPattern, intOf_minPattern_add_one hs]
    omega

/-! ## Equality and order -/

theorem bitResult_beq {t : CType} (a b : t.Pattern) : bitResult (a == b) = if a = b then 1 else 0 := by
  simp only [bitResult, beq_iff_eq]

/-- Settles O47: patterns have one value exactly when they are one pattern. -/
theorem equalComparesValues : Obligations.EqualComparesValues := by
  intro t s
  simp only [value_eq_value_iff, intOf_inj, ← bitResult_beq]
  rfl

theorem value_lt_value_iff {t : CType} {a b : t.Pattern} : Spec.value t a < Spec.value t b ↔ intOf t a < intOf t b :=
  lt_iff_lt_of_le_iff_le value_le_value_iff

/-- The sign of a difference on the result port orders the two numbers (R43, R238). -/
theorem triResult_sign_sub (x y : ℤ) :
    triResult (x - y).sign = if x < y then BitVec.allOnes 256 else if x = y then 0 else 1 := by
  rcases lt_trichotomy x y with h | h | h
  · rw [if_pos h, Int.sign_eq_neg_one_of_neg (by omega)]
    decide
  · rw [if_neg h.not_lt, if_pos h, h, sub_self]
    rfl
  · rw [if_neg h.not_gt, if_neg h.ne', Int.sign_eq_one_of_pos (by omega)]
    rfl

/-- Settles O48: the order of values is that of the integer readings. -/
theorem compareOrdersValues : Obligations.CompareOrdersValues := by
  intro t s
  simp only [value_lt_value_iff, value_eq_value_iff, ← triResult_sign_sub]
  rfl

end Sys2Proof.Machine
end

section
/-! The wide integer: what the wide commands do to the 256-bit values on the ports (45_wide_integer.md R270 to R283). -/

namespace Sys2Proof.Machine

/-! ## Operands -/

@[simp] theorem toNat_wideA (s : State) : (wideA s).toNat = s.a.toNat := Wide.toNat_ofWord s.a

@[simp] theorem toNat_wideB (s : State) : (wideB s).toNat = s.b.toNat := Wide.toNat_ofWord s.b

@[simp] theorem toNat_halfA (s : State) : (halfA s).toNat = s.a.toNat % 2 ^ 128 := BitVec.extractLsb'_toNat 0 128 s.a

@[simp] theorem toNat_halfB (s : State) : (halfB s).toNat = s.b.toNat % 2 ^ 128 := BitVec.extractLsb'_toNat 0 128 s.b

theorem Wide.toNat_zero_hi (lo : HalfWord) : (Wide.mk 0 lo).toNat = lo.toNat := by
  simp [Wide.toNat]

/-- Settles O52: the pair with a zero high word has the value of its low word. -/
theorem wideFromGivesTheLowWord : Obligations.WideFromGivesTheLowWord := by
  intro s
  refine ⟨(Wide.mk 0 (halfA s)).toWord, rfl, ?_⟩
  rw [Wide.toNat_toWord, Wide.toNat_zero_hi, toNat_halfA]

/-! ## Addition, subtraction, multiplication and order -/

/-- Settles O53: the word-pair add stops at 2^256 - 1, which a sum below 2^256 does not exceed. -/
theorem wideAddSaturates : Obligations.WideAddSaturates := by
  intro s
  refine ⟨((wideA s).add (wideB s)).toWord, rfl, ?_⟩
  rw [Wide.toNat_toWord, Wide.toNat_add, toNat_wideA, toNat_wideB]
  split_ifs <;> omega

/-- Settles O54: the word-pair subtract is the subtraction of naturals, which stops at 0. -/
theorem wideSubtractSaturates : Obligations.WideSubtractSaturates := by
  intro s
  refine ⟨((wideA s).sub (wideB s)).toWord, rfl, ?_⟩
  rw [Wide.toNat_toWord, Wide.toNat_sub, toNat_wideA, toNat_wideB]
  split_ifs <;> omega

/-- Settles O59: the schoolbook multiply is exact on the two low words. -/
theorem wideMultiplyIsExact : Obligations.WideMultiplyIsExact := by
  intro s
  refine ⟨(Wide.mul (halfA s) (halfB s)).toWord, rfl, ?_⟩
  rw [Wide.toNat_toWord, Wide.toNat_mul, toNat_halfA, toNat_halfB]

theorem exec_wCmp (s : State) : exec .wCmp s = .next (s.complete (triResult ((wideA s).compare (wideB s)))) := rfl

/-- Settles O60: the word-pair comparison is the sign of the difference of the values, and one value is one word. -/
theorem wideCompareIsUnsigned : Obligations.WideCompareIsUnsigned := by
  intro s
  rw [exec_wCmp, Wide.compare_eq, toNat_wideA, toNat_wideB, triResult_sign_sub, State.complete_eq]
  simp only [Nat.cast_lt, Nat.cast_inj, BitVec.toNat_inj]

/-! ## Shifts -/

section
variable {s : State}

theorem exec_wShl_of_lt (hk : s.b.toNat < 256) :
    exec .wShl s = .next (s.complete ((wideA s).shl s.b.toNat).toWord) :=
  if_neg (Nat.not_le.mpr hk)

theorem exec_wShl_of_le (hk : 256 ≤ s.b.toNat) : exec .wShl s = .next (s.raiseFault .shiftRange) :=
  if_pos hk

theorem exec_wShr_of_lt (hk : s.b.toNat < 256) :
    exec .wShr s = .next (s.complete ((wideA s).shr s.b.toNat).toWord) :=
  if_neg (Nat.not_le.mpr hk)

theorem exec_wShr_of_le (hk : 256 ≤ s.b.toNat) : exec .wShr s = .next (s.raiseFault .shiftRange) :=
  if_pos hk

end

/-- Settles O55: below 256 the word-pair left shift is the multiplication modulo 2^256, from 256 on there is no
result. -/
theorem wideShiftLeftDiscardsOrFaults : Obligations.WideShiftLeftDiscardsOrFaults := by
  refine fun s => ⟨fun hk => ⟨_, exec_wShl_of_lt hk, ?_⟩, exec_wShl_of_le⟩
  rw [Wide.toNat_toWord, Wide.toNat_shl _ hk, toNat_wideA]

/-- Settles O56: below 256 the word-pair right shift is the division, from 256 on there is no result. -/
theorem wideShiftRightDividesOrFaults : Obligations.WideShiftRightDividesOrFaults := by
  refine fun s => ⟨fun hk => ⟨_, exec_wShr_of_lt hk, ?_⟩, exec_wShr_of_le⟩
  rw [Wide.toNat_toWord, Wide.toNat_shr _ hk, toNat_wideA]

/-- A word that leaves its top k bits free comes back from a left shift by k (R283). -/
theorem shiftLeft_div_cancel {x k : ℕ} (hk : k ≤ 256) (hx : x < 2 ^ (256 - k)) :
    x * 2 ^ k % 2 ^ 256 / 2 ^ k = x := by
  have hfit : x * 2 ^ k < 2 ^ 256 := calc
    x * 2 ^ k < 2 ^ (256 - k) * 2 ^ k := Nat.mul_lt_mul_of_pos_right hx (Nat.two_pow_pos k)
    _ = 2 ^ 256 := Nat.pow_sub_mul_pow 2 hk
  rw [Nat.mod_eq_of_lt hfit, Nat.mul_div_cancel x (Nat.two_pow_pos k)]

/-- Settles O57: the quotient of the shifted value is the value, so the word is the one shifted. -/
theorem wideShiftRightUndoesShiftLeft : Obligations.WideShiftRightUndoesShiftLeft := by
  intro s hk hfit
  obtain ⟨v, hshl, hv⟩ := (wideShiftLeftDiscardsOrFaults s).1 hk
  refine ⟨v, hshl, fun u ha hb => ?_⟩
  obtain ⟨w, hshr, hw⟩ := (wideShiftRightDividesOrFaults u).1 (hb ▸ hk)
  have hback : w = s.a := BitVec.eq_of_toNat_eq <| by
    rw [hw, ha, hb, hv, shiftLeft_div_cancel hk.le hfit]
  rw [hshr, hback]

/-! ## Bitwise commands -/

/-- Settles O58: a bit of each result is the operation on the bits of the operands. -/
theorem wideBitwiseCommandsWorkBitByBit : Obligations.WideBitwiseCommandsWorkBitByBit := by
  intro s
  refine ⟨s.a &&& s.b, s.a ||| s.b, s.a ^^^ s.b, ~~~s.a, rfl, rfl, rfl, rfl, fun i hi => ?_⟩
  have hnot : (~~~s.a).getLsbD i = !s.a.getLsbD i := by
    rw [BitVec.getLsbD_not, decide_eq_true hi, Bool.true_and]
  exact ⟨BitVec.getLsbD_and, BitVec.getLsbD_or, BitVec.getLsbD_xor, hnot⟩

end Sys2Proof.Machine
end

section
/-! The idle block: with no request waiting nothing is retained (60_exceptions.md R324). -/

namespace Sys2Proof.Machine

/-- Settles O8: the step with no request waiting idles, and to idle is to clear RES and STATUS. -/
theorem idleStepLeavesNoValue : Obligations.IdleStepLeavesNoValue := by
  intro s hs
  calc step s = .next s.idle := step_of_idle hs
    _ = .next { s with res := none, status := none } := rfl

end Sys2Proof.Machine
end

section
/-! Reset during operation: a block that was reset answers a request as if none had been in flight
(70_reset_and_hazards.md R341). -/

namespace Sys2Proof.Machine

@[simp] theorem State.resetBlock_output (s : State) : s.resetBlock.output = (none, none) := rfl

/-- The first output of a block at which requests wait is the response to the oldest (R41, R345). -/
theorem outputs_one_of_pending {s : State} {r : Request} {rest : List Request} (hs : s.pending = r :: rest) :
    outputs 1 s = responseTo r := by
  obtain ⟨t, code, res, hstep, -, houtput, hresp⟩ := step_gives_responseTo hs
  calc outputs 1 s = [t.output] := outputs_succ_of_step 0 hstep
    _ = responseTo r := by rw [houtput, hresp]

/-- Settles O17: no request of before the reset waits, so the one presented after it is the oldest. -/
theorem resetLosesRequestsInFlight : Obligations.ResetLosesRequestsInFlight := by
  intro s r
  have holdest : (s.resetBlock.present r).pending = [r] := by simp
  exact ⟨s.resetBlock_pending, s.resetBlock_output, outputs_one_of_pending holdest⟩

end Sys2Proof.Machine
end
